-- ==== Sys2Proof/Word.lean ====
section
/-! DEFINITION. The word types of the machine. -/

namespace Sys2Proof

/-- One byte of the buffer `BUF` (20_memory.md R40). -/
abbrev Byte := BitVec 8

/-- A command word, the value a host writes to `CMD` (30_encoding.md R60). -/
abbrev CommandWord := BitVec 8

/-- A register number of the host interface (10_state.md section 1). -/
abbrev RegNum := BitVec 8

end Sys2Proof
end

