-- ==== Sys2Proof/Syntax.lean ====
section
/-! DEFINITION. The ten commands of the opcode map (30_encoding.md R62), one constructor per row of
spec/opcode_table.json. -/

namespace Sys2Proof

/-- A command. The only operand in the command set is the field width of `RDBITS` (30_encoding.md R60, R63). -/
inductive Instr where
  /-- `RDBITS n`: read an n-bit field at the cursor (40_bit_cursor.md R94). -/
  | rdbits (n : Nat)
  /-- `RD16` (41_field_combinators.md R101). -/
  | rd16
  /-- `RD20` (41_field_combinators.md R102). -/
  | rd20
  /-- `RD24` (41_field_combinators.md R103). -/
  | rd24
  /-- `RD36` (41_field_combinators.md R104). -/
  | rd36
  /-- `SKIP128` (41_field_combinators.md R105). -/
  | skip128
  /-- `MAGIC` (44_stream_decoder.md R141). -/
  | magic
  /-- `BLKHDR` (42_block_header.md R121). -/
  | blkhdr
  /-- `STRINFO` (43_stream_info.md R131). -/
  | strinfo
  /-- `STREAM` (44_stream_decoder.md R145). -/
  | stream
deriving DecidableEq, Repr

/-- The pseudo-instruction `RD8` is another name of `RDBITS 8` (30_encoding.md R67, 41_field_combinators.md R108). -/
abbrev Instr.rd8 : Instr := .rdbits 8

/-- The pseudo-instruction `RD4` is another name of `RDBITS 4` (30_encoding.md R67, 41_field_combinators.md R108). -/
abbrev Instr.rd4 : Instr := .rdbits 4

end Sys2Proof
end

