-- ==== Sys2Proof/WellFormed.lean ====
section
/-! DEFINITION. Which terms of `Instr` are commands of the hardware. -/

namespace Sys2Proof

/-- The width of `RDBITS` is in `[1,64]` (40_bit_cursor.md R94); no word encodes another (30_encoding.md R63).
The other commands have no operand. -/
def Instr.wellFormed : Instr → Bool
  | .rdbits n => decide (1 ≤ n) && decide (n ≤ 64)
  | .rd16 | .rd20 | .rd24 | .rd36 | .skip128 | .magic | .blkhdr | .strinfo | .stream => true

end Sys2Proof
end

