-- ==== Sys2Proof/Decode.lean ====
section
/-! DEFINITION. The command word: fields, decoder, encoder and the rows of the opcode map (30_encoding.md part 1). -/

namespace Sys2Proof

/-- Why a word is no command: the three reserved ranges of 30_encoding.md R62. -/
inductive ReservedWord where
  /-- 0x45 to 0x7F: a selector of group 1 that no combinator has. -/
  | combinatorSelector
  /-- 0x84 to 0xBF: a selector of group 2 that no decoder has. -/
  | decoderSelector
  /-- 0xC0 to 0xFF: group 3. -/
  | group3
deriving DecidableEq, Repr

/-- Field `grp`, bits [7:6] of format C8 (30_encoding.md R61). -/
def grpField (w : CommandWord) : BitVec 2 := w.extractLsb' 6 2

/-- Field `arg`, bits [5:0] of format C8 (30_encoding.md R61). -/
def argField (w : CommandWord) : BitVec 6 := w.extractLsb' 0 6

/-- The decoder (30_encoding.md R62, R63, R64): total on the 256 words, each reserved word rejected by the name of its
range. -/
def decode (w : CommandWord) : Except ReservedWord Instr :=
  match (grpField w).toNat, (argField w).toNat with
  | 0, nm1 => .ok (.rdbits (nm1 + 1))
  | 1, 0 => .ok .rd16
  | 1, 1 => .ok .rd20
  | 1, 2 => .ok .rd24
  | 1, 3 => .ok .rd36
  | 1, 4 => .ok .skip128
  | 1, _ => .error .combinatorSelector
  | 2, 0 => .ok .magic
  | 2, 1 => .ok .blkhdr
  | 2, 2 => .ok .strinfo
  | 2, 3 => .ok .stream
  | 2, _ => .error .decoderSelector
  | _, _ => .error .group3

/-- A word of format C8 from its two fields (30_encoding.md R61). -/
def wordC8 (grp : BitVec 2) (arg : BitVec 6) : CommandWord := grp ++ arg

/-- The encoder, from the opcode map of 30_encoding.md R62 and `arg = n - 1` of R63. `RDBITS n` with `n` outside `[1,64]`
has no word; that it gets the low 6 bits of `n - 1` here (0 for `n = 0`) is the model's. DESIGN CHOICE, safe (log 19). -/
def encode : Instr → CommandWord
  | .rdbits n => wordC8 0 (BitVec.ofNat 6 (n - 1))
  | .rd16 => wordC8 1 0
  | .rd20 => wordC8 1 1
  | .rd24 => wordC8 1 2
  | .rd36 => wordC8 1 3
  | .skip128 => wordC8 1 4
  | .magic => wordC8 2 0
  | .blkhdr => wordC8 2 1
  | .strinfo => wordC8 2 2
  | .stream => wordC8 2 3

/-- A row of the opcode map: a word `w` selects it when `w &&& mask = pattern` (30_encoding.md R62). -/
structure OpcodeRow where
  /-- The column `match`. -/
  pattern : CommandWord
  /-- The column `mask`. -/
  mask : CommandWord
deriving DecidableEq, Repr

/-- The row of each command in the table of 30_encoding.md R62. -/
def opcodeRow : Instr → OpcodeRow
  | .rdbits _ => ⟨0x00, 0xC0⟩
  | .rd16 => ⟨0x40, 0xFF⟩
  | .rd20 => ⟨0x41, 0xFF⟩
  | .rd24 => ⟨0x42, 0xFF⟩
  | .rd36 => ⟨0x43, 0xFF⟩
  | .skip128 => ⟨0x44, 0xFF⟩
  | .magic => ⟨0x80, 0xFF⟩
  | .blkhdr => ⟨0x81, 0xFF⟩
  | .strinfo => ⟨0x82, 0xFF⟩
  | .stream => ⟨0x83, 0xFF⟩

/-- The word `w` selects the row `r` (30_encoding.md R62). -/
def OpcodeRow.selects (r : OpcodeRow) (w : CommandWord) : Bool := w &&& r.mask == r.pattern

/-- The command my decoder reads from a word given as a number of `nbits` bits, numbered as spec/opcode_table.json
numbers them. A command is one byte (30_encoding.md R60), so bits from 8 up belong to no command. -/
def decodeTableWord (nbits w : Nat) : Option Instr := (decode (BitVec.ofNat 8 (w % 2 ^ nbits))).toOption

end Sys2Proof
end

