-- ==== Sys2Proof/Config.lean ====
section
/-! DEFINITION. What an implementation fixes (`Params`) and the values the spec leaves open (opaque constants, about
which nothing can be proved). -/

namespace Sys2Proof

/-- `ws` is a way to read a field of `total` bits: each piece is one primitive read, of 1 to 64 bits, and together they
are the field (41_field_combinators.md R100, 40_bit_cursor.md R92). -/
def splitOk (total : Nat) (ws : List Nat) : Bool :=
  ws.all (fun w => decide (1 ≤ w) && decide (w ≤ 64)) && decide (ws.sum = total)

/-- A piece list of a composite of `total` bits. -/
structure Split (total : Nat) where
  widths : List Nat
  ok : splitOk total widths = true
deriving DecidableEq, Repr

/-- The piece lists of the five composites (41_field_combinators.md R100), a configuration of the model
(93_implementation_defined.md U2): any lists whose pieces make up the field. DESIGN CHOICE, safe (log 14). -/
structure PieceTable where
  read16 : Split 16
  read20 : Split 20
  read24 : Split 24
  read36 : Split 36
  skip128 : Split 128
deriving DecidableEq, Repr

/-- The static parameters of 00_scope.md section 4 and the piece table of 41_field_combinators.md R100. They are plain data so that every claim about all states is a
claim about all parameter values; no step changes them. DESIGN CHOICE, safe (log 1, log 2, log 14). -/
structure Params where
  /-- `BUF_CAP`, the buffer capacity in bytes, at least 1 (00_scope.md R5). -/
  bufCap : Nat
  /-- `STRICT_HDR`: `true` is 1, `false` is 0 (00_scope.md R6). -/
  strictHdr : Bool
  /-- The piece table (41_field_combinators.md R100). -/
  pieces : PieceTable
deriving DecidableEq, Repr

/-- `BUF_CAP - 1`: the spec leaves the capacity OPEN (92_eei_decisions.md D14), so this has no value (log 1). -/
opaque Config.bufCapLessOne : Nat

/-- The unspecified value that draw number `draw` gives register number `num` (93_implementation_defined.md U1, U6).
A register narrower than the value keeps its low bits. DESIGN CHOICE, safe (log 6). -/
opaque Config.freeValue : (draw num : Nat) → Nat

/-- The unspecified content of `BUF[i]` between reset number `epoch` and the first host write to it
(93_implementation_defined.md U7, 20_memory.md R50). DESIGN CHOICE, safe (log 8). -/
opaque Config.freeByte : (epoch i : Nat) → Byte

end Sys2Proof
end

