-- ==== Sys2Proof/Machine/Parameters.lean ====
section
/-! DEFINITION. The values the static parameters have for this hardware. -/

namespace Sys2Proof

/-- The piece table of 41_field_combinators.md R100. -/
def PieceTable.tabulated : PieceTable where
  read16 := ⟨[8, 8], rfl⟩
  read20 := ⟨[8, 8, 4], rfl⟩
  read24 := ⟨[8, 8, 8], rfl⟩
  read36 := ⟨[4, 8, 8, 8, 8], rfl⟩
  skip128 := ⟨List.replicate 16 8, rfl⟩

/-- The parameters of the hardware: an unknown capacity of at least 1 (00_scope.md R5), `STRICT_HDR = 0` (00_scope.md
R6) and the piece table of 41_field_combinators.md R100. -/
def Config.params : Params :=
  { bufCap := Config.bufCapLessOne + 1, strictHdr := false, pieces := PieceTable.tabulated }

end Sys2Proof
end

