-- ==== Sys2Proof/Machine/State.lean ====
section
/-! DEFINITION. The state of the block and of its host interface, the reasons a step can stop, and reset. -/

namespace Sys2Proof.Machine

/-- `STATUS.KIND`, the outcome of the most recent command (10_state.md R16). -/
inductive Kind where
  /-- Code 0: the command completed. -/
  | ok
  /-- Code 1: a primitive read found too few bits. -/
  | incomplete
  /-- Code 2: decoded content violates a hard constraint. -/
  | invalid
  /-- Code 3: the word written to `CMD` is reserved. -/
  | badcmd
deriving DecidableEq, Repr

/-- The cursor: byte index `CUR_BYTE` and bit offset `CUR_BIT`, bit offset 0 being a byte's most significant bit
(10_state.md R10, R11). `CUR_BYTE` has `POSW` bits; `POSW` depends on the open capacity, so it is a natural number,
bounded by `BUF_CAP` in the machine's invariant (log 15). -/
structure Cursor where
  byte : Nat
  bit : BitVec 3
deriving DecidableEq, Repr

/-- The closed enumeration BlockType (30_encoding.md R72). -/
inductive BlockType where
  | streamInfo | padding | application | seekTable | vorbisComment | cueSheet | picture | reserved | btInvalid
deriving DecidableEq, Repr

/-- The block-header group BH_LAST, BH_TYPE, BH_LEN (10_state.md R20). -/
structure BlockHeader where
  last : BitVec 1
  blockType : BitVec 4
  len : BitVec 24
deriving DecidableEq, Repr

/-- The stream-info group, the eight SI registers (10_state.md R21). -/
structure StreamInfo where
  minBlk : BitVec 16
  maxBlk : BitVec 16
  minFrm : BitVec 24
  maxFrm : BitVec 24
  rate : BitVec 20
  nch : BitVec 4
  bps : BitVec 6
  total : BitVec 36
deriving DecidableEq, Repr

/-- The three result groups of 10_state.md R18. -/
inductive Group where
  | value | bh | si
deriving DecidableEq, Repr

/-- What a command delivers at its `Commit`: one entry per result group, `none` for a group that is not its target
(60_exceptions.md R183). -/
structure Results where
  value : Option (BitVec 64) := none
  bh : Option BlockHeader := none
  si : Option StreamInfo := none
deriving DecidableEq, Repr

/-- What a command can raise (60_exceptions.md R184). -/
inductive Raise where
  /-- `raise Incomplete(k)`: the failing primitive read lacks `k` bits. -/
  | incomplete (k : Nat)
  /-- `raise Invalid`. -/
  | invalid
deriving DecidableEq, Repr

/-- One move of the host: the four transactions of 45_host_access.md and the reset event of 70_reset_and_hazards.md
R210. -/
inductive Transaction where
  /-- `HostCmd(w)` (45_host_access.md R164). -/
  | cmd (w : CommandWord)
  /-- `HostBufWrite(i, v)` (45_host_access.md R161). -/
  | bufWrite (i : Nat) (v : Byte)
  /-- `HostWrite(num, v)` (45_host_access.md R163, R165, R166). -/
  | write (num : RegNum) (v : Nat)
  /-- `HostRead(num)` (45_host_access.md R162). -/
  | read (num : RegNum)
  /-- The reset event (70_reset_and_hazards.md R210). -/
  | reset
deriving DecidableEq, Repr

/-- The bytes of `BUF` the host has written since the latest reset: addresses strictly rising. An index that is not
listed holds no value (70_reset_and_hazards.md R212), so no listed byte equals what an unlisted index holds. -/
abbrev Memory := List Host.Cell

/-- The machine. The first block of fields is the spec's; the second is the model's own. -/
structure State where
  /-- The static parameters (00_scope.md section 4, 41_field_combinators.md R100); no step changes them. -/
  params : Params
  /-- `CUR_BYTE` and `CUR_BIT` (10_state.md R10). -/
  cur : Cursor
  /-- `BUF_LEN` (10_state.md R15), `POSW` bits wide, bounded by `BUF_CAP` in the machine's invariant (log 15). -/
  bufLen : Nat
  /-- `BUF` (10_state.md R24). -/
  buf : Memory
  /-- `STATUS.KIND` (10_state.md R16). -/
  kind : Kind
  /-- `STATUS.V_VALUE` (10_state.md R16, R18). -/
  vValue : Bool
  /-- `STATUS.V_BH` (10_state.md R16, R18). -/
  vBh : Bool
  /-- `STATUS.V_SI` (10_state.md R16, R18). -/
  vSi : Bool
  /-- `NEEDED` (10_state.md R17). -/
  needed : BitVec 7
  /-- `VALUE` (10_state.md R19). -/
  value : BitVec 64
  /-- `BH_LAST`, `BH_TYPE`, `BH_LEN` (10_state.md R20). -/
  bh : BlockHeader
  /-- The eight `SI_` registers (10_state.md R21). -/
  si : StreamInfo
  /-- The model's own: the host's coming transactions, oldest first (60_exceptions.md R202; log 3). -/
  pending : List Transaction
  /-- The model's own: what the latest `HostRead` returned to the host (45_host_access.md R162; log 5). -/
  hostData : Option Nat
  /-- The model's own: the number of the next draw of a free value (log 6). -/
  draws : Nat
  /-- The model's own: how many reset events have happened; it selects the unspecified contents of `BUF` (log 8). -/
  epoch : Nat
deriving DecidableEq, Repr

/-- Why the machine stops with a fault: it never does, so there is no reason. The spec's own errors are outcomes
reported in `STATUS` (60_exceptions.md R180), and what it puts outside itself a model refuses
(93_implementation_defined.md U3, U5). -/
inductive Fault where
deriving DecidableEq, Repr

/-- Why the model gives a step no meaning. -/
inductive Refusal where
  /-- Raised by an arm of `exec` whose instruction has no meaning yet. Safe: the model stops. -/
  | notModelled (mnemonic : String)
  /-- Raised by every command issued while the cursor is not well formed: outside the spec, the model refuses
  (10_state.md R13, 93_implementation_defined.md U3). Safe: the model stops (log 12). -/
  | illFormedCursor
  /-- Raised by `RDBITS n` with `n` outside `[1,64]`: no command word expresses it (30_encoding.md R63,
  91_not_in_source.md N7), so no step meets it. Safe: the model stops (log 16). -/
  | widthOutOfRange
  /-- Raised by `HostBufWrite(i, v)` with `i >= BUF_CAP`: no such address exists (20_memory.md R40), outside the spec,
  the model refuses (93_implementation_defined.md U5, 45_host_access.md R169). Safe: the model stops (log 11). -/
  | bufIndexOutsideBuffer
  /-- Raised by `HostWrite` of a value above the legal range of `CUR_BYTE`, `CUR_BIT`, `BUF_LEN` or `CMD`: outside the
  spec, the model refuses (93_implementation_defined.md U5, 45_host_access.md R163, R164). Safe: the model stops
  (log 11). -/
  | hostValueOutOfRange
deriving DecidableEq, Repr

/-- The state after reset with parameters `p` (10_state.md R31). The result registers are unspecified there; the zeros
are the model's. DESIGN CHOICE, unsafe (log 7): no host read shows them, since every valid flag is 0. -/
def State.resetWith (p : Params) : State where
  params := p
  cur := ⟨0, 0⟩
  bufLen := 0
  buf := []
  kind := .ok
  vValue := false
  vBh := false
  vSi := false
  needed := 0
  value := 0
  bh := ⟨0, 0, 0⟩
  si := ⟨0, 0, 0, 0, 0, 0, 0, 0⟩
  pending := []
  hostData := none
  draws := 0
  epoch := 0

/-- The machine right after reset (10_state.md R31, 70_reset_and_hazards.md R210). -/
def State.reset : State := State.resetWith Config.params

end Sys2Proof.Machine
end

