-- ==== Sys2Proof/Machine/Flags.lean ====
section
/-! DEFINITION. The status register as one word, and how a result group becomes unspecified. -/

namespace Sys2Proof.Machine

/-- The two-bit code of an outcome (10_state.md R16, 60_exceptions.md R180). -/
def Kind.code : Kind → BitVec 2
  | .ok => 0
  | .incomplete => 1
  | .invalid => 2
  | .badcmd => 3

/-- `STATUS` as the host reads it: KIND in bits [1:0], V_VALUE bit 2, V_BH bit 3, V_SI bit 4 (10_state.md R16; log 10). -/
def State.status (s : State) : BitVec 5 :=
  BitVec.ofBool s.vSi ++ (BitVec.ofBool s.vBh ++ (BitVec.ofBool s.vValue ++ s.kind.code))

/-- An unspecified value of a `w`-bit register (93_implementation_defined.md U1). -/
def freeWord (w draw num : Nat) : BitVec w := BitVec.ofNat w (Config.freeValue draw num)

/-- The block-header registers 0x07 to 0x09 holding unspecified values (10_state.md R18). -/
def freeBlockHeader (draw : Nat) : BlockHeader :=
  ⟨freeWord 1 draw 0x07, freeWord 4 draw 0x08, freeWord 24 draw 0x09⟩

/-- The stream-info registers 0x0A to 0x11 holding unspecified values (10_state.md R18). -/
def freeStreamInfo (draw : Nat) : StreamInfo :=
  ⟨freeWord 16 draw 0x0A, freeWord 16 draw 0x0B, freeWord 24 draw 0x0C, freeWord 24 draw 0x0D,
    freeWord 20 draw 0x0E, freeWord 4 draw 0x0F, freeWord 6 draw 0x10, freeWord 36 draw 0x11⟩

/-- A result group becomes invalid: its flag is 0 and its registers hold unspecified values (10_state.md R18). -/
def State.invalidate (s : State) : Group → State
  | .value => { s with vValue := false, value := freeWord 64 s.draws 0x06, draws := s.draws + 1 }
  | .bh => { s with vBh := false, bh := freeBlockHeader s.draws, draws := s.draws + 1 }
  | .si => { s with vSi := false, si := freeStreamInfo s.draws, draws := s.draws + 1 }

/-- Each group of a list becomes invalid. -/
def State.invalidateAll (s : State) (gs : List Group) : State := gs.foldl State.invalidate s

end Sys2Proof.Machine
end

