-- ==== Sys2Proof/Machine/Ops.lean ====
section
/-! DEFINITION. The named operations over memory and the cursor, the primitive read, and the two ways a command ends:
`Commit` and failure entry. -/

namespace Sys2Proof.Machine

/-! ### The buffer -/

/-- The byte the host has written at an index since the latest reset, if any. -/
def Memory.read : Memory → Nat → Option Byte
  | [], _ => none
  | (a, b) :: m, i => if a = i then some b else Memory.read m i

/-- Write one byte, keeping the addresses strictly rising. -/
def Memory.write : Memory → Nat → Byte → Memory
  | [], i, v => [(i, v)]
  | (a, b) :: m, i, v =>
    if i < a then (i, v) :: (a, b) :: m
    else if a = i then (i, v) :: m
    else (a, b) :: Memory.write m i v

/-- The canonical form: addresses strictly rising. -/
abbrev Memory.wf (m : Memory) : Prop := (m.map Prod.fst).Pairwise (· < ·)

/-- `MemRead(i, 1)`: the latest byte written to `BUF[i]`, else the unspecified content it has had since reset
(20_memory.md R50, 93_implementation_defined.md U7). It changes nothing (20_memory.md R47). -/
def State.memByte (s : State) (i : Nat) : Byte := (Memory.read s.buf i).getD (Config.freeByte s.epoch i)

/-! ### The cursor -/

/-- The bit address `8 * y + b` of a cursor (20_memory.md R57). -/
def Cursor.addr (c : Cursor) : Nat := 8 * c.byte + c.bit.toNat

/-- `Remaining(c)`, an integer (40_bit_cursor.md R90). -/
def State.remaining (s : State) (c : Cursor) : Int := 8 * ((s.bufLen : Int) - c.byte) - c.bit.toNat

/-- A well-formed cursor (10_state.md R13). -/
abbrev State.cursorWf (s : State) (c : Cursor) : Prop :=
  c.byte ≤ s.bufLen ∧ (c.byte = s.bufLen → c.bit = 0)

/-- `Advance(c, n)` (40_bit_cursor.md R91). -/
def Cursor.advance (c : Cursor) (n : Nat) : Cursor :=
  ⟨c.byte + (c.bit.toNat + n) / 8, BitVec.ofNat 3 ((c.bit.toNat + n) % 8)⟩

/-! ### The primitive read -/

/-- `BitAt(c, k)` (20_memory.md R42, R43). -/
def State.bitAt (s : State) (c : Cursor) (k : Nat) : Nat :=
  ((s.memByte (c.byte + (c.bit.toNat + k) / 8)).getLsbD (7 - (c.bit.toNat + k) % 8)).toNat

/-- The first `n` stream bits from the cursor as an unsigned number, the first bit most significant (20_memory.md
R44). -/
def State.bitsAt (s : State) (c : Cursor) : Nat → Nat
  | 0 => 0
  | n + 1 => 2 * s.bitsAt c n + s.bitAt c n

/-- `Take(c, n)`, the primitive read (40_bit_cursor.md R92): it changes no register. -/
def State.take (s : State) (c : Cursor) (n : Nat) : Except Raise (Cursor × Nat) :=
  if s.remaining c < n then .error (.incomplete (n - s.remaining c).toNat)
  else .ok (c.advance n, s.bitsAt c n)

/-! ### The end of a command -/

/-- `Commit` (60_exceptions.md R183): the cursor, the registers of the target groups and their flags, KIND and
NEEDED, in one update. -/
def State.commit (s : State) (c : Cursor) (r : Results) : State :=
  { s with
    cur := c
    value := r.value.getD s.value
    vValue := r.value.isSome || s.vValue
    bh := r.bh.getD s.bh
    vBh := r.bh.isSome || s.vBh
    si := r.si.getD s.si
    vSi := r.si.isSome || s.vSi
    kind := .ok
    needed := 0 }

/-- Failure entry, the hardware's exception entry (60_exceptions.md R184). The cursor is unchanged, so the return, the
host issuing the command again, needs no operation (60_exceptions.md R190). -/
def State.raise (s : State) (targets : List Group) : Raise → State
  | .incomplete k => { s.invalidateAll targets with kind := .incomplete, needed := BitVec.ofNat 7 k }
  | .invalid => { s.invalidateAll targets with kind := .invalid, needed := 0 }

/-- BADCMD entry (60_exceptions.md R185). -/
def State.badCommand (s : State) : State := { s with kind := .badcmd, needed := 0 }

/-- One command as one atomic step (10_state.md R23): refused at an ill-formed cursor (10_state.md R13), else its body
runs on a local cursor that starts as a copy of `CUR` (10_state.md R12) and ends in `Commit` or in failure entry. -/
def runCommand (targets : List Group) (body : State → Cursor → Except Raise (Cursor × Results)) (s : State) :
    Host.Outcome State Fault Refusal :=
  if s.cursorWf s.cur then
    match body s s.cur with
    | .ok (c, r) => .next (s.commit c r)
    | .error e => .next (s.raise targets e)
  else .refused .illFormedCursor

end Sys2Proof.Machine
end

