-- ==== Sys2Proof/Machine/Operands.lean ====
section
/-! DEFINITION. The composite reads (41_field_combinators.md), and how raw fields become register values
(30_encoding.md part 2). -/

namespace Sys2Proof.Machine

/-- The five composites of 41_field_combinators.md R100. -/
inductive Composite where
  | read16 | read20 | read24 | read36 | skip128
deriving DecidableEq, Repr

/-- The bits of a composite in all (41_field_combinators.md R100). -/
def Composite.total : Composite → Nat
  | .read16 => 16
  | .read20 => 20
  | .read24 => 24
  | .read36 => 36
  | .skip128 => 128

/-- The row of a composite in the piece table (41_field_combinators.md R100, 93_implementation_defined.md U2): only
`NEEDED` depends on it. -/
def Composite.pieces (k : Composite) (t : PieceTable) : List Nat :=
  match k with
  | .read16 => t.read16.widths
  | .read20 => t.read20.widths
  | .read24 => t.read24.widths
  | .read36 => t.read36.widths
  | .skip128 => t.skip128.widths

/-- The loop of `TakeSeq` with the value `v` gathered so far (41_field_combinators.md R109, 30_encoding.md R75). -/
def State.takeSeqFrom (s : State) : List Nat → Cursor → Nat → Except Raise (Cursor × Nat)
  | [], c, v => .ok (c, v)
  | w :: ws, c, v =>
    match s.take c w with
    | .error e => .error e
    | .ok (c', p) => s.takeSeqFrom ws c' (v * 2 ^ w + p)

/-- `TakeSeq(c, ws)` (41_field_combinators.md R109). -/
def State.takeSeq (s : State) (c : Cursor) (ws : List Nat) : Except Raise (Cursor × Nat) := s.takeSeqFrom ws c 0

/-- `SkipSeq(c, ws)` (41_field_combinators.md R109): each piece is read and its value dropped. -/
def State.skipSeq (s : State) : Cursor → List Nat → Except Raise Cursor
  | c, [] => .ok c
  | c, w :: ws =>
    match s.take c w with
    | .error e => .error e
    | .ok (c', _) => s.skipSeq c' ws

/-- A composite read by its row of the piece table (41_field_combinators.md R109). -/
def State.takeComposite (s : State) (c : Cursor) (k : Composite) : Except Raise (Cursor × Nat) :=
  s.takeSeq c (k.pieces s.params.pieces)

/-- `Skip128(c)` (41_field_combinators.md R109). -/
def State.skip128 (s : State) (c : Cursor) : Except Raise Cursor := 
  s.skipSeq c (Composite.skip128.pieces s.params.pieces)

/-- The results of a command whose one target is VALUE: the read number, zero-extended (10_state.md R19). -/
def valueResult (v : Nat) : Results := { value := some (BitVec.ofNat 64 v) }

/-- `BlockTypeOf(t)` (30_encoding.md R72). -/
def blockTypeOf (t : Nat) : BlockType :=
  match t with
  | 0 => .streamInfo
  | 1 => .padding
  | 2 => .application
  | 3 => .seekTable
  | 4 => .vorbisComment
  | 5 => .cueSheet
  | 6 => .picture
  | 127 => .btInvalid
  | _ => .reserved

/-- The 4-bit code of a block type (30_encoding.md R73). -/
def BlockType.code : BlockType → BitVec 4
  | .streamInfo => 0
  | .padding => 1
  | .application => 2
  | .seekTable => 3
  | .vorbisComment => 4
  | .cueSheet => 5
  | .picture => 6
  | .reserved => 7
  | .btInvalid => 8

/-- `SI_NCH = raw + 1` in 4 bits (30_encoding.md R76). -/
def biasedChannels (raw : Nat) : BitVec 4 := BitVec.ofNat 4 (raw + 1)

/-- `SI_BPS = raw + 1` in 6 bits (30_encoding.md R76). -/
def biasedDepth (raw : Nat) : BitVec 6 := BitVec.ofNat 6 (raw + 1)

end Sys2Proof.Machine
end

