-- ==== Sys2Proof/Machine/BitCursor.lean ====
section
/-! DEFINITION. The meaning of RDBITS (40_bit_cursor.md). -/

namespace Sys2Proof.Machine

/-- The body of `RDBITS n` (40_bit_cursor.md R94). -/
def rdbitsBody (n : Nat) (s : State) (c : Cursor) : Except Raise (Cursor × Results) := do
  let (c, v) ← s.take c n
  return (c, valueResult v)

/-- `RDBITS n` (40_bit_cursor.md R94). A width no command word expresses is refused (91_not_in_source.md N7). -/
def execRdbits (n : Nat) (s : State) : Host.Outcome State Fault Refusal :=
  if 1 ≤ n ∧ n ≤ 64 then runCommand [.value] (rdbitsBody n) s else .refused .widthOutOfRange

end Sys2Proof.Machine
end

