-- ==== Sys2Proof/Machine/BlockHeader.lean ====
section
/-! DEFINITION. The Block Header Decoder and the meaning of BLKHDR (42_block_header.md). -/

namespace Sys2Proof.Machine

/-- A decoded block header, before it is put into registers (42_block_header.md R120). -/
structure DecodedHeader where
  last : Bool
  blockType : BlockType
  len : Nat
deriving DecidableEq, Repr

/-- `DecodeBlockHeader(c)` (42_block_header.md R120): widths 1, 7, 8, 8, 8 in this order, nothing checked (R122). -/
def decodeBlockHeader (s : State) (c : Cursor) : Except Raise (Cursor × DecodedHeader) := do
  let (c, f) ← s.take c 1
  let (c, t) ← s.take c 7
  let (c, len) ← s.takeComposite c .read24
  return (c, ⟨f != 0, blockTypeOf t, len⟩)

/-- The register values of a decoded header (10_state.md R20, 30_encoding.md R73). -/
def DecodedHeader.registers (h : DecodedHeader) : BlockHeader :=
  ⟨BitVec.ofBool h.last, h.blockType.code, BitVec.ofNat 24 h.len⟩

/-- The body of `BLKHDR` (42_block_header.md R121). -/
def blkhdrBody (s : State) (c : Cursor) : Except Raise (Cursor × Results) := do
  let (c, h) ← decodeBlockHeader s c
  return (c, { bh := some h.registers })

/-- `BLKHDR` (42_block_header.md R121). -/
def execBlkhdr (s : State) : Host.Outcome State Fault Refusal := runCommand [.bh] blkhdrBody s

end Sys2Proof.Machine
end

