-- ==== Sys2Proof/Machine/FieldCombinators.lean ====
section
/-! DEFINITION. The meanings of RD16, RD20, RD24, RD36 and SKIP128 (41_field_combinators.md). -/

namespace Sys2Proof.Machine

/-- The body the four composite reads share: one composite into VALUE (41_field_combinators.md R101 to R104). -/
def compositeBody (k : Composite) (s : State) (c : Cursor) : Except Raise (Cursor × Results) := do
  let (c, v) ← s.takeComposite c k
  return (c, valueResult v)

/-- `RD16` (41_field_combinators.md R101). -/
def execRd16 (s : State) : Host.Outcome State Fault Refusal := runCommand [.value] (compositeBody .read16) s

/-- `RD20` (41_field_combinators.md R102). -/
def execRd20 (s : State) : Host.Outcome State Fault Refusal := runCommand [.value] (compositeBody .read20) s

/-- `RD24` (41_field_combinators.md R103). -/
def execRd24 (s : State) : Host.Outcome State Fault Refusal := runCommand [.value] (compositeBody .read24) s

/-- `RD36` (41_field_combinators.md R104). -/
def execRd36 (s : State) : Host.Outcome State Fault Refusal := runCommand [.value] (compositeBody .read36) s

/-- The body of `SKIP128` (41_field_combinators.md R105). -/
def skip128Body (s : State) (c : Cursor) : Except Raise (Cursor × Results) := do
  let c ← s.skip128 c
  return (c, {})

/-- `SKIP128` (41_field_combinators.md R105): no target group. -/
def execSkip128 (s : State) : Host.Outcome State Fault Refusal := runCommand [] skip128Body s

end Sys2Proof.Machine
end

