-- ==== Sys2Proof/Machine/StreamInfo.lean ====
section
/-! DEFINITION. The Stream-Info Decoder and the meaning of STRINFO (43_stream_info.md). -/

namespace Sys2Proof.Machine

/-- `DecodeStreamInfo(c)` (43_stream_info.md R130): eight fields kept, the 128 checksum bits read and dropped, no field
checked (30_encoding.md R78). -/
def decodeStreamInfo (s : State) (c : Cursor) : Except Raise (Cursor × StreamInfo) := do
  let (c, minBlk) ← s.takeComposite c .read16
  let (c, maxBlk) ← s.takeComposite c .read16
  let (c, minFrm) ← s.takeComposite c .read24
  let (c, maxFrm) ← s.takeComposite c .read24
  let (c, rate) ← s.takeComposite c .read20
  let (c, chRaw) ← s.take c 3
  let (c, bpsRaw) ← s.take c 5
  let (c, total) ← s.takeComposite c .read36
  let c ← s.skip128 c
  return (c, ⟨BitVec.ofNat 16 minBlk, BitVec.ofNat 16 maxBlk, BitVec.ofNat 24 minFrm, BitVec.ofNat 24 maxFrm,
    BitVec.ofNat 20 rate, biasedChannels chRaw, biasedDepth bpsRaw, BitVec.ofNat 36 total⟩)

/-- The body of `STRINFO` (43_stream_info.md R131). -/
def strinfoBody (s : State) (c : Cursor) : Except Raise (Cursor × Results) := do
  let (c, i) ← decodeStreamInfo s c
  return (c, { si := some i })

/-- `STRINFO` (43_stream_info.md R131). -/
def execStrinfo (s : State) : Host.Outcome State Fault Refusal := runCommand [.si] strinfoBody s

end Sys2Proof.Machine
end

