-- ==== Sys2Proof/Machine/StreamDecoder.lean ====
section
/-! DEFINITION. The Stream Decoder: the magic check and the meanings of MAGIC and STREAM (44_stream_decoder.md). -/

namespace Sys2Proof.Machine

/-- `VerifyMagic(c)` (44_stream_decoder.md R140): all four bytes are read before any is compared (R142). -/
def verifyMagic (s : State) (c : Cursor) : Except Raise Cursor := do
  let (c, m0) ← s.take c 8
  let (c, m1) ← s.take c 8
  let (c, m2) ← s.take c 8
  let (c, m3) ← s.take c 8
  if m0 = 0x66 ∧ m1 = 0x4C ∧ m2 = 0x61 ∧ m3 = 0x43 then return c else throw .invalid

/-- The body of `MAGIC` (44_stream_decoder.md R141). -/
def magicBody (s : State) (c : Cursor) : Except Raise (Cursor × Results) := do
  let c ← verifyMagic s c
  return (c, {})

/-- `MAGIC` (44_stream_decoder.md R141): no target group. -/
def execMagic (s : State) : Host.Outcome State Fault Refusal := runCommand [] magicBody s

/-- The header cross-check fails: `STRICT_HDR = 1` and the header is not (StreamInfo, 34) (44_stream_decoder.md
R146). -/
def headerRejected (p : Params) (h : DecodedHeader) : Bool :=
  p.strictHdr && !(decide (h.blockType = .streamInfo) && decide (h.len = 34))

/-- The body of `STREAM`: the states VerifyMagic, DecodeFirstBlockHeader, DecodeStreamInfo and Done in order
(44_stream_decoder.md R144, R145); Done delivers the header as well (R147). -/
def streamBody (s : State) (c : Cursor) : Except Raise (Cursor × Results) := do
  let c ← verifyMagic s c
  let (c, h) ← decodeBlockHeader s c
  if headerRejected s.params h then throw .invalid
  else do
    let (c, i) ← decodeStreamInfo s c
    return (c, { bh := some h.registers, si := some i })

/-- `STREAM` (44_stream_decoder.md R145). -/
def execStream (s : State) : Host.Outcome State Fault Refusal := runCommand [.bh, .si] streamBody s

end Sys2Proof.Machine
end

