-- ==== Sys2Proof/Machine/Dispatch.lean ====
section
/-! DEFINITION. One command's meaning, constructor by constructor. -/

namespace Sys2Proof.Machine

def exec (i : Instr) (s : State) : Host.Outcome State Fault Refusal :=
  match i with
  | .rdbits n => Sys2Proof.Machine.execRdbits n s
  | .rd16 => Sys2Proof.Machine.execRd16 s
  | .rd20 => Sys2Proof.Machine.execRd20 s
  | .rd24 => Sys2Proof.Machine.execRd24 s
  | .rd36 => Sys2Proof.Machine.execRd36 s
  | .skip128 => Sys2Proof.Machine.execSkip128 s
  | .magic => Sys2Proof.Machine.execMagic s
  | .blkhdr => Sys2Proof.Machine.execBlkhdr s
  | .strinfo => Sys2Proof.Machine.execStrinfo s
  | .stream => Sys2Proof.Machine.execStream s

end Sys2Proof.Machine
end

