-- ==== Sys2Proof/Machine/HostAccess.lean ====
section
/-! DEFINITION. The host's transactions (45_host_access.md) and the reset event (70_reset_and_hazards.md). -/

namespace Sys2Proof.Machine

/-- `HostCmd(w)` (45_host_access.md R164). Decoding comes before everything, so a reserved word is BADCMD at any cursor
and reads nothing (60_exceptions.md R186, 30_encoding.md R64; DEDUCED, log 13). -/
def hostCmd (w : CommandWord) (s : State) : Host.Outcome State Fault Refusal :=
  match decode w with
  | .ok i => exec i s
  | .error _ => .next s.badCommand

/-- `HostBufWrite(i, v)` (45_host_access.md R161); an index at or above `BUF_CAP` is refused (R169). -/
def hostBufWrite (i : Nat) (v : Byte) (s : State) : Host.Outcome State Fault Refusal :=
  if i < s.params.bufCap then .next { s with buf := Memory.write s.buf i v } else .refused .bufIndexOutsideBuffer

/-- `HostWrite(num, v)`: CMD executes (45_host_access.md R164); CUR_BYTE, CUR_BIT and BUF_LEN are written (R163); a
read-only register (R165) and an unassigned number (R166) ignore the write. -/
def hostWrite (num : RegNum) (v : Nat) (s : State) : Host.Outcome State Fault Refusal :=
  match num.toNat with
  | 0x00 => if v < 256 then hostCmd (BitVec.ofNat 8 v) s else .refused .hostValueOutOfRange
  | 0x03 => if v ≤ s.params.bufCap then .next { s with cur := { s.cur with byte := v } } else .refused .hostValueOutOfRange
  | 0x04 => if v ≤ 7 then .next { s with cur := { s.cur with bit := BitVec.ofNat 3 v } } else .refused .hostValueOutOfRange
  | 0x05 => if v ≤ s.params.bufCap then .next { s with bufLen := v } else .refused .hostValueOutOfRange
  | _ => .next s

/-- A register of a result group: its value when the group's flag is 1, else unspecified (10_state.md R18). -/
def guarded (valid : Bool) (v : Nat) : Option Nat := if valid then some v else none

/-- The value the spec gives the register with number `num` (10_state.md section 1, 45_host_access.md R162); `none`
where the value is unspecified: CMD, an unassigned number, a result register whose flag is 0. -/
def State.register (s : State) (num : RegNum) : Option Nat :=
  match num.toNat with
  | 0x01 => some s.status.toNat
  | 0x02 => some s.needed.toNat
  | 0x03 => some s.cur.byte
  | 0x04 => some s.cur.bit.toNat
  | 0x05 => some s.bufLen
  | 0x06 => guarded s.vValue s.value.toNat
  | 0x07 => guarded s.vBh s.bh.last.toNat
  | 0x08 => guarded s.vBh s.bh.blockType.toNat
  | 0x09 => guarded s.vBh s.bh.len.toNat
  | 0x0A => guarded s.vSi s.si.minBlk.toNat
  | 0x0B => guarded s.vSi s.si.maxBlk.toNat
  | 0x0C => guarded s.vSi s.si.minFrm.toNat
  | 0x0D => guarded s.vSi s.si.maxFrm.toNat
  | 0x0E => guarded s.vSi s.si.rate.toNat
  | 0x0F => guarded s.vSi s.si.nch.toNat
  | 0x10 => guarded s.vSi s.si.bps.toNat
  | 0x11 => guarded s.vSi s.si.total.toNat
  | _ => none

/-- The width of a register whose read can be unspecified (10_state.md section 1); an unassigned number has none. -/
def unspecifiedWidth (num : RegNum) : Option Nat :=
  match num.toNat with
  | 0x00 => some 8
  | 0x06 => some 64
  | 0x07 => some 1
  | 0x08 => some 4
  | 0x09 => some 24
  | 0x0A => some 16
  | 0x0B => some 16
  | 0x0C => some 24
  | 0x0D => some 24
  | 0x0E => some 20
  | 0x0F => some 4
  | 0x10 => some 6
  | 0x11 => some 36
  | _ => none

/-- The free value an unspecified read returns: any value of the register's width (93_implementation_defined.md U1,
U6). -/
def unspecifiedRead (draw : Nat) (num : RegNum) : Nat :=
  match unspecifiedWidth num with
  | some w => (freeWord w draw num.toNat).toNat
  | none => Config.freeValue draw num.toNat

/-- `HostRead(num)` (45_host_access.md R162): the value goes to the host and no register changes. -/
def hostRead (num : RegNum) (s : State) : Host.Outcome State Fault Refusal :=
  match s.register num with
  | some v => .next { s with hostData := some v }
  | none => .next { s with hostData := some (unspecifiedRead s.draws num), draws := s.draws + 1 }

/-- The reset event (70_reset_and_hazards.md R210, R212): the reset values of 10_state.md R31, the result groups
unspecified, the buffer holding nothing. The host's side (what it will do next, what it has read) is not reset, and
the static parameters stay (00_scope.md R6). DEDUCED, safe (log 9). -/
def State.resetEvent (s : State) : State :=
  { State.resetWith s.params with
    pending := s.pending, hostData := s.hostData, draws := s.draws, epoch := s.epoch + 1 }.invalidateAll [.value, .bh, .si]

/-- One transaction of the host (60_exceptions.md R202). -/
def perform (t : Transaction) (s : State) : Host.Outcome State Fault Refusal :=
  match t with
  | .cmd w => hostCmd w s
  | .bufWrite i v => hostBufWrite i v s
  | .write num v => hostWrite num v s
  | .read num => hostRead num s
  | .reset => .next s.resetEvent

end Sys2Proof.Machine
end

