-- ==== Sys2Proof/Machine/Step.lean ====
section
/-! DEFINITION. One step of the system: the host's next transaction. -/

namespace Sys2Proof.Machine

/-- One step: the oldest pending transaction is performed (60_exceptions.md R202, 20_memory.md R51). With none pending
the block is idle and keeps all state (60_exceptions.md R200, R206). -/
def step (s : State) : Host.Outcome State Fault Refusal :=
  match s.pending with
  | [] => .next s
  | t :: rest => perform t { s with pending := rest }

/-- The state with one more `HostCmd`, of the low 8 bits of the word, as the host's next transaction: the block fetches
nothing, a command comes from the host (20_memory.md R54; log 4). -/
def State.withFetchWord (s : State) (nbits w : Nat) : State :=
  { s with pending := .cmd (BitVec.ofNat 8 (w % 2 ^ nbits)) :: s.pending }

end Sys2Proof.Machine
end

