-- ==== Sys2Proof/Machine/HostProgram.lean ====
section
/-! DEFINITION. The lines of a host program and the transactions they stand for (30_encoding.md R66, R67). -/

namespace Sys2Proof.Machine

/-- One line of a host program (30_encoding.md R66). -/
inductive Line where
  /-- A command by its mnemonic. -/
  | command (i : Instr)
  /-- `CMD w`, used to write reserved words. -/
  | cmd (w : CommandWord)
  /-- `SETCUR y, b`. -/
  | setcur (y b : Nat)
  /-- `SETLEN L`. -/
  | setlen (len : Nat)
  /-- `BUF b0 b1 ... bk`. -/
  | buf (bytes : List Byte)
  /-- `APPEND b0 ... bk`. -/
  | append (bytes : List Byte)
  /-- `RD reg`. -/
  | rd (num : RegNum)
  /-- `RESET`. -/
  | reset
deriving DecidableEq, Repr

/-- `HostBufWrite(i, b0)`, `HostBufWrite(i + 1, b1)`, and so on. -/
def bufWrites : Nat → List Byte → List Transaction
  | _, [] => []
  | i, b :: bs => .bufWrite i b :: bufWrites (i + 1) bs

/-- The transactions of a line, with `len` the current `BUF_LEN` that `APPEND` starts from (30_encoding.md R66). A line
`RDBITS n` with `n` outside `[1,64]` is no line of R66, which gives it no word; here it stands for `HostCmd` of the word
`encode` gives it. DESIGN CHOICE, safe (log 19). -/
def Line.transactions (len : Nat) : Line → List Transaction
  | .command i => [.cmd (encode i)]
  | .cmd w => [.cmd w]
  | .setcur y b => [.write 0x03 y, .write 0x04 b]
  | .setlen l => [.write 0x05 l]
  | .buf bs => bufWrites 0 bs ++ [.write 0x05 bs.length]
  | .append bs => bufWrites len bs ++ [.write 0x05 (len + bs.length)]
  | .rd num => [.read num]
  | .reset => [.reset]

end Sys2Proof.Machine
end

