-- ==== Sys2Proof/Safety.lean ====
section
/-! DEFINITION. The terms claims are stated in: fields of the stream as the spec's formulas give them, the tables of the
spec about the ten commands, and what a good state is. None of it is used by the machine. -/

namespace Sys2Proof

open Machine

/-! ### The stream -/

/-- The stream bit with bit address `a`: bit `7 - a mod 8` of byte `a div 8` (20_memory.md R42, R57). -/
def streamBit (s : State) (a : Nat) : Nat := ((s.memByte (a / 8)).getLsbD (7 - a % 8)).toNat

/-- The `n`-bit field that starts at bit address `a`, by the sum of 20_memory.md R44. -/
def field (s : State) (a n : Nat) : Nat := ∑ k ∈ Finset.range n, streamBit s (a + k) * 2 ^ (n - 1 - k)

/-- The magic as one 32-bit value (30_encoding.md R70). -/
def magicWord : Nat := 0x664C6143

/-- The code of BH_TYPE as a function of the tag (30_encoding.md R73). -/
def typeCode (t : Nat) : Nat := if t ≤ 6 then t else if t = 127 then 8 else 7

/-- The block header that starts at bit address `a`, by the layout of 30_encoding.md R71. -/
def headerAt (s : State) (a : Nat) : BlockHeader :=
  ⟨BitVec.ofNat 1 (field s a 1), BitVec.ofNat 4 (typeCode (field s (a + 1) 7)), BitVec.ofNat 24 (field s (a + 8) 24)⟩

/-- The stream info that starts at bit address `a`, by the layout of 30_encoding.md R74 and the bias of R76. -/
def infoAt (s : State) (a : Nat) : StreamInfo :=
  ⟨BitVec.ofNat 16 (field s a 16), BitVec.ofNat 16 (field s (a + 16) 16), BitVec.ofNat 24 (field s (a + 32) 24),
    BitVec.ofNat 24 (field s (a + 56) 24), BitVec.ofNat 20 (field s (a + 80) 20),
    BitVec.ofNat 4 (field s (a + 100) 3 + 1), BitVec.ofNat 6 (field s (a + 103) 5 + 1),
    BitVec.ofNat 36 (field s (a + 108) 36)⟩

/-- The 272-bit number whose bytes, most significant first, encode the stream info `i` with checksum `ck`
(95_test_vectors.md E2, 43_stream_info.md R134). -/
def packedInfo (i : StreamInfo) (ck : Nat) : Nat :=
  (((((((i.minBlk.toNat * 2 ^ 16 + i.maxBlk.toNat) * 2 ^ 24 + i.minFrm.toNat) * 2 ^ 24 + i.maxFrm.toNat) * 2 ^ 20
    + i.rate.toNat) * 2 ^ 3 + (i.nch.toNat - 1)) * 2 ^ 5 + (i.bps.toNat - 1)) * 2 ^ 36 + i.total.toNat) * 2 ^ 128 + ck

/-! ### Tables about the commands -/

/-- The bits a command consumes when it succeeds (10_state.md R12). -/
def bitsConsumed : Instr → Nat
  | .rdbits n => n
  | .rd16 => 16
  | .rd20 => 20
  | .rd24 => 24
  | .rd36 => 36
  | .skip128 => 128
  | .magic => 32
  | .blkhdr => 32
  | .strinfo => 272
  | .stream => 336

/-- The target groups of a command (10_state.md R18). -/
def targetGroups : Instr → List Group
  | .rdbits _ | .rd16 | .rd20 | .rd24 | .rd36 => [.value]
  | .skip128 | .magic => []
  | .blkhdr => [.bh]
  | .strinfo => [.si]
  | .stream => [.bh, .si]

/-- The sums of the first 1, 2, ... pieces (41_field_combinators.md R107). -/
def prefixSums : List Nat → List Nat
  | [] => []
  | w :: ws => w :: (prefixSums ws).map (w + ·)

/-- The piece widths of a block header, in stream order (42_block_header.md R120). -/
def headerPieces (t : PieceTable) : List Nat := [1, 7] ++ t.read24.widths

/-- The piece widths of a STREAMINFO block, in stream order (43_stream_info.md R130). -/
def infoPieces (t : PieceTable) : List Nat :=
  t.read16.widths ++ t.read16.widths ++ t.read24.widths ++ t.read24.widths ++ t.read20.widths ++ [3] ++ [5] ++
    t.read36.widths ++ t.skip128.widths

/-- The piece widths of what STREAM reads, in stream order (44_stream_decoder.md R145). -/
def streamPieces (t : PieceTable) : List Nat := [8, 8, 8, 8] ++ headerPieces t ++ infoPieces t

/-- The piece prefix sums of STRINFO with the tabulated pieces (43_stream_info.md R132). -/
def infoPrefixes : List Nat :=
  [8, 16, 24, 32, 40, 48, 56, 64, 72, 80, 88, 96, 100, 103, 108, 112, 120, 128, 136, 144,
    152, 160, 168, 176, 184, 192, 200, 208, 216, 224, 232, 240, 248, 256, 264, 272]

/-- The piece prefix sums of STREAM with the tabulated pieces (44_stream_decoder.md R150). -/
def streamPrefixes : List Nat := [8, 16, 24, 32, 33, 40, 48, 56, 64] ++ infoPrefixes.map (64 + ·)

/-- `P - R` for `P` the smallest of the rising prefix sums that is greater than `R` (41_field_combinators.md R107). -/
def neededFrom (prefixes : List Nat) (R : Nat) : Nat :=
  match prefixes.find? (fun P => decide (R < P)) with
  | some P => P - R
  | none => 0

/-- `NEEDED` of a read of these pieces that finds only `R` bits (41_field_combinators.md R107). -/
def neededBy (pieces : List Nat) (R : Nat) : Nat := neededFrom (prefixSums pieces) R

/-! ### States -/

/-- The cursor is well formed and `R` bits remain from it (10_state.md R13, 40_bit_cursor.md R90). -/
abbrev Avail (s : State) (R : Nat) : Prop := s.cursorWf s.cur ∧ s.remaining s.cur = R

/-- The header that follows the magic at the cursor is accepted by STREAM: always when `STRICT_HDR = 0`, else when its
type tag is 0 and its length 34 (44_stream_decoder.md R146, R149). -/
abbrev HeaderAccepted (s : State) : Prop :=
  s.params.strictHdr = true → field s (s.cur.addr + 33) 7 = 0 ∧ field s (s.cur.addr + 40) 24 = 34

/-- `t` is `s` after a command with target groups `gs` failed with outcome `k` and count `n` (60_exceptions.md R184):
nothing but KIND, NEEDED and the flags and registers of the target groups differs. The registers of a target group are
unspecified, so nothing is said of them. -/
structure Failed (s t : State) (gs : List Group) (k : Kind) (n : Nat) : Prop where
  kind : t.kind = k
  needed : t.needed.toNat = n
  cur : t.cur = s.cur
  bufLen : t.bufLen = s.bufLen
  buf : t.buf = s.buf
  params : t.params = s.params
  pending : t.pending = s.pending
  hostData : t.hostData = s.hostData
  epoch : t.epoch = s.epoch
  vValue : t.vValue = (s.vValue && decide (Group.value ∉ gs))
  vBh : t.vBh = (s.vBh && decide (Group.bh ∉ gs))
  vSi : t.vSi = (s.vSi && decide (Group.si ∉ gs))
  value : Group.value ∉ gs → t.value = s.value
  bh : Group.bh ∉ gs → t.bh = s.bh
  si : Group.si ∉ gs → t.si = s.si

/-- What no command changes, whatever its outcome: the buffer (every byte of it), its length, the static parameters and
the host's side (20_memory.md R47, 10_state.md R15). -/
structure KeepsInput (s t : State) : Prop where
  memByte : ∀ a, t.memByte a = s.memByte a
  bufLen : t.bufLen = s.bufLen
  params : t.params = s.params
  pending : t.pending = s.pending
  hostData : t.hostData = s.hostData
  epoch : t.epoch = s.epoch

/-- Two states give a command the same input: the cursor, the length, the bytes below it and STRICT_HDR (20_memory.md
R47). The piece table may differ. -/
structure SameInput (s t : State) : Prop where
  cur : t.cur = s.cur
  bufLen : t.bufLen = s.bufLen
  bytes : ∀ i, i < s.bufLen → t.memByte i = s.memByte i
  strictHdr : t.params.strictHdr = s.params.strictHdr

/-- The input of `t` extends that of `s`: same cursor and STRICT_HDR, at least as many bytes, the first ones equal
(40_bit_cursor.md R96). The piece table may differ. -/
structure ExtendsInput (s t : State) : Prop where
  cur : t.cur = s.cur
  bufLen : s.bufLen ≤ t.bufLen
  bytes : ∀ i, i < s.bufLen → t.memByte i = s.memByte i
  strictHdr : t.params.strictHdr = s.params.strictHdr

/-- Two ends of a command give the host the same results in the target groups `gs`. -/
structure SameResults (gs : List Group) (s t : State) : Prop where
  value : Group.value ∈ gs → t.vValue = s.vValue ∧ t.value = s.value
  bh : Group.bh ∈ gs → t.vBh = s.vBh ∧ t.bh = s.bh
  si : Group.si ∈ gs → t.vSi = s.vSi ∧ t.si = s.si

/-- A good state: the positions are in range (00_scope.md R5, 10_state.md R15), the buffer is canonical and inside its
capacity (20_memory.md R40), NEEDED agrees with KIND (10_state.md R17), and a valid group holds values the hardware can
produce (10_state.md R20, R21, 30_encoding.md R73). -/
structure Inv (s : State) : Prop where
  bufCap : 1 ≤ s.params.bufCap
  curByte : s.cur.byte ≤ s.params.bufCap
  bufLen : s.bufLen ≤ s.params.bufCap
  bufWf : Memory.wf s.buf
  bufIn : ∀ x ∈ s.buf, x.1 < s.params.bufCap
  neededIncomplete : s.kind = .incomplete → 1 ≤ s.needed.toNat ∧ s.needed.toNat ≤ 64
  neededOther : s.kind ≠ .incomplete → s.needed = 0
  blockType : s.vBh = true → s.bh.blockType.toNat ≤ 8
  channels : s.vSi = true → 1 ≤ s.si.nch.toNat ∧ s.si.nch.toNat ≤ 8
  depth : s.vSi = true → 1 ≤ s.si.bps.toNat ∧ s.si.bps.toNat ≤ 32

end Sys2Proof
end

