-- ==== Sys2Proof/Certificates/Slice0/Obligations.lean ====
section
/-! DEFINITION. What is claimed of the machine. Each claim cites the rules of spec/ it states. A state update
`{ s with … }` in a conclusion says as well that every field it does not name is unchanged. -/

open Sys2Proof Sys2Proof.Machine

/-! ### Command words -/

/-- One word of each command, written out from the opcode map (30_encoding.md R62, R63), decodes to that command. -/
def Obligations.TabulatedWordsDecode : Prop :=
  decode 0b00000000 = .ok (.rdbits 1) ∧ decode 0b00000111 = .ok .rd8 ∧ decode 0b00111111 = .ok (.rdbits 64) ∧
  decode 0b01000000 = .ok .rd16 ∧ decode 0b01000001 = .ok .rd20 ∧ decode 0b01000010 = .ok .rd24 ∧
  decode 0b01000011 = .ok .rd36 ∧ decode 0b01000100 = .ok .skip128 ∧ decode 0b10000000 = .ok .magic ∧
  decode 0b10000001 = .ok .blkhdr ∧ decode 0b10000010 = .ok .strinfo ∧ decode 0b10000011 = .ok .stream

/-- The complete map of the 256 words (30_encoding.md R62): which words are which command, that each command's words
select its row by match and mask, and that 73 words are defined. -/
def Obligations.CommandMapAsTabulated : Prop :=
  (∀ w : CommandWord,
    if w.toNat ≤ 0x3F then decode w = .ok (.rdbits (w.toNat + 1))
    else if w.toNat = 0x40 then decode w = .ok .rd16
    else if w.toNat = 0x41 then decode w = .ok .rd20
    else if w.toNat = 0x42 then decode w = .ok .rd24
    else if w.toNat = 0x43 then decode w = .ok .rd36
    else if w.toNat = 0x44 then decode w = .ok .skip128
    else if w.toNat = 0x80 then decode w = .ok .magic
    else if w.toNat = 0x81 then decode w = .ok .blkhdr
    else if w.toNat = 0x82 then decode w = .ok .strinfo
    else if w.toNat = 0x83 then decode w = .ok .stream
    else (decode w).toOption = none) ∧
  (∀ (w : CommandWord) (i : Instr), decode w = .ok i → (opcodeRow i).selects w = true) ∧
  ((List.range 256).filter fun w => (decode (BitVec.ofNat 8 w)).toOption.isSome).length = 73

/-- Decoding the word of any well-formed command gives the command back, `RDBITS` at every width of `[1,64]`
(30_encoding.md R62, R63). -/
def Obligations.DecodeOfEncode : Prop := ∀ i : Instr, i.wellFormed = true → decode (encode i) = .ok i

/-- A word has one meaning: the command it decodes to is well formed and encodes to that word (30_encoding.md R62,
R63). -/
def Obligations.EncodeOfDecode : Prop :=
  ∀ (w : CommandWord) (i : Instr), decode w = .ok i → i.wellFormed = true ∧ encode i = w

/-- A reserved word writes KIND and NEEDED and changes nothing else, in every state (30_encoding.md R64,
60_exceptions.md R185). At an ill-formed cursor this is the model's choice (log 13). -/
def Obligations.ReservedWordIsBadCommand : Prop :=
  ∀ (s : State) (w : CommandWord), (0x45 ≤ w.toNat ∧ w.toNat ≤ 0x7F) ∨ 0x84 ≤ w.toNat →
    hostCmd w s = .next { s with kind := .badcmd, needed := 0 }

/-! ### The cursor and the primitive read -/

/-- `Advance` and its two laws (40_bit_cursor.md R91). -/
def Obligations.AdvanceComposes : Prop :=
  ∀ (s : State) (c : Cursor) (m n : Nat),
    (c.advance n).byte = c.byte + (c.bit.toNat + n) / 8 ∧
    (c.advance n).bit.toNat = (c.bit.toNat + n) % 8 ∧
    (c.advance m).advance n = c.advance (m + n) ∧
    s.remaining (c.advance n) = s.remaining c - n

/-- `Remaining` is the integer of 40_bit_cursor.md R90, and is not negative exactly at a well-formed cursor. -/
def Obligations.RemainingNonnegIffWellFormed : Prop :=
  ∀ (s : State) (c : Cursor),
    s.remaining c = 8 * ((s.bufLen : Int) - (c.byte : Int)) - (c.bit.toNat : Int) ∧
    (0 ≤ s.remaining c ↔ s.cursorWf c)

/-- The primitive read at a well-formed cursor: Incomplete with the shortfall, or the new cursor and the big-endian
field, which is below `2^n` (40_bit_cursor.md R92). -/
def Obligations.PrimitiveRead : Prop :=
  ∀ (s : State) (c : Cursor) (n R : Nat), 1 ≤ n → n ≤ 64 → s.cursorWf c → s.remaining c = R →
    (R < n → s.take c n = .error (.incomplete (n - R))) ∧
    (n ≤ R → s.take c n = .ok (c.advance n, field s c.addr n)) ∧
    field s c.addr n < 2 ^ n

/-- The count an Incomplete primitive read carries, its bounds, and that enough more bits at the same cursor make the
read succeed (40_bit_cursor.md R93). -/
def Obligations.ShortfallBounds : Prop :=
  ∀ (s : State) (c : Cursor) (n k : Nat), 1 ≤ n → n ≤ 64 → s.cursorWf c →
    s.take c n = .error (.incomplete k) →
    (k : Int) = n - s.remaining c ∧ 1 ≤ k ∧ k ≤ n ∧
    (∀ L : Nat, s.bufLen + (k + 7) / 8 ≤ L → (n : Int) ≤ State.remaining { s with bufLen := L } c) ∧
    (∀ L : Nat, (n : Int) ≤ State.remaining { s with bufLen := L } c →
      ∃ v, State.take { s with bufLen := L } c n = .ok (c.advance n, v))

/-- Two reads in sequence are one wide read: `u * 2^n + v` (20_memory.md R44). -/
def Obligations.AdjacentReadsConcatenate : Prop :=
  ∀ (s : State) (c c1 c2 : Cursor) (m n u v : Nat), 1 ≤ m → 1 ≤ n → m + n ≤ 64 →
    s.take c m = .ok (c1, u) → s.take c1 n = .ok (c2, v) →
    s.take c (m + n) = .ok (c2, u * 2 ^ n + v)

/-- When a sequence of pieces succeeds it returns what one read of the whole width would, and it succeeds exactly when
all its bits remain (41_field_combinators.md R106). -/
def Obligations.SequenceReadsOneField : Prop :=
  ∀ (s : State) (c : Cursor) (ws : List Nat), (∀ w ∈ ws, 1 ≤ w ∧ w ≤ 64) → s.cursorWf c →
    ((ws.sum : Int) ≤ s.remaining c → s.takeSeq c ws = .ok (c.advance ws.sum, field s c.addr ws.sum)) ∧
    ((ws.sum : Int) ≤ s.remaining c ↔ ∃ x, s.takeSeq c ws = .ok x)

/-- When a sequence of pieces fails, the count is that of the first piece whose prefix sum exceeds the bits that remain
(41_field_combinators.md R107). -/
def Obligations.SequenceCountsFirstShortPiece : Prop :=
  ∀ (s : State) (c : Cursor) (ws : List Nat) (R : Nat), (∀ w ∈ ws, 1 ≤ w ∧ w ≤ 64) → s.cursorWf c →
    s.remaining c = R → R < ws.sum →
    ∃ i : Nat, i < ws.length ∧ (ws.take i).sum ≤ R ∧ R < (ws.take (i + 1)).sum ∧
      s.takeSeq c ws = .error (.incomplete ((ws.take (i + 1)).sum - R)) ∧
      s.skipSeq c ws = .error (.incomplete ((ws.take (i + 1)).sum - R)) ∧
      (ws.take (i + 1)).sum - R ≤ ws.getD i 0 ∧ (ws.take (i + 1)).sum - R ≤ ws.sum - R ∧
      ((ws.take (i + 1)).sum - R = ws.sum - R ↔ i + 1 = ws.length)

/-- A read has as many bytes as it needs exactly when it completes: `ceil((b + n) / 8)` of them (40_bit_cursor.md
R95). -/
def Obligations.EnoughBytesSuffice : Prop :=
  ∀ (s : State) (n : Nat), 1 ≤ n → n ≤ 64 → s.cursorWf s.cur →
    ((s.cur.bit.toNat + n + 7) / 8 ≤ s.bufLen - s.cur.byte →
      ∃ t, exec (.rdbits n) s = .next t ∧ t.kind = .ok ∧ t.cur.bit.toNat = (s.cur.bit.toNat + n) % 8) ∧
    (s.bufLen - s.cur.byte < (s.cur.bit.toNat + n + 7) / 8 →
      ∃ t, exec (.rdbits n) s = .next t ∧ t.kind = .incomplete)

/-! ### The ten commands -/

/-- `RDBITS n` (40_bit_cursor.md R94). -/
def Obligations.RdbitsMeaning : Prop :=
  ∀ (s : State) (n R : Nat), 1 ≤ n → n ≤ 64 → Avail s R →
    decode (BitVec.ofNat 8 (n - 1)) = .ok (.rdbits n) ∧
    (n ≤ R → exec (.rdbits n) s = .next { s with
      cur := s.cur.advance n, value := BitVec.ofNat 64 (field s s.cur.addr n), vValue := true, kind := .ok, needed := 0 }) ∧
    (R < n → ∃ t, exec (.rdbits n) s = .next t ∧ Failed s t [.value] .incomplete (n - R))

/-- `RD16` (41_field_combinators.md R101), for every piece list the table can give it; the counts of R107 for the
list of R100. -/
def Obligations.Rd16Meaning : Prop :=
  ∀ (s : State) (R : Nat), Avail s R →
    decode 0x40 = .ok .rd16 ∧
    (16 ≤ R → exec .rd16 s = .next { s with
      cur := s.cur.advance 16, value := BitVec.ofNat 64 (field s s.cur.addr 16), vValue := true, kind := .ok, needed := 0 }) ∧
    (R < 16 → (∃ t, exec .rd16 s = .next t ∧
        Failed s t [.value] .incomplete (neededBy s.params.pieces.read16.widths R)) ∧
      (s.params.pieces.read16.widths = [8, 8] → neededBy s.params.pieces.read16.widths R =
        if R < 8 then 8 - R else 16 - R))

/-- `RD20` (41_field_combinators.md R102), for every piece list the table can give it; the counts of R107 for the
list of R100. -/
def Obligations.Rd20Meaning : Prop :=
  ∀ (s : State) (R : Nat), Avail s R →
    decode 0x41 = .ok .rd20 ∧
    (20 ≤ R → exec .rd20 s = .next { s with
      cur := s.cur.advance 20, value := BitVec.ofNat 64 (field s s.cur.addr 20), vValue := true, kind := .ok, needed := 0 }) ∧
    (R < 20 → (∃ t, exec .rd20 s = .next t ∧
        Failed s t [.value] .incomplete (neededBy s.params.pieces.read20.widths R)) ∧
      (s.params.pieces.read20.widths = [8, 8, 4] → neededBy s.params.pieces.read20.widths R =
        if R < 8 then 8 - R else if R < 16 then 16 - R else 20 - R))

/-- `RD24` (41_field_combinators.md R103), for every piece list the table can give it; the counts of R107 for the
list of R100. -/
def Obligations.Rd24Meaning : Prop :=
  ∀ (s : State) (R : Nat), Avail s R →
    decode 0x42 = .ok .rd24 ∧
    (24 ≤ R → exec .rd24 s = .next { s with
      cur := s.cur.advance 24, value := BitVec.ofNat 64 (field s s.cur.addr 24), vValue := true, kind := .ok, needed := 0 }) ∧
    (R < 24 → (∃ t, exec .rd24 s = .next t ∧
        Failed s t [.value] .incomplete (neededBy s.params.pieces.read24.widths R)) ∧
      (s.params.pieces.read24.widths = [8, 8, 8] → neededBy s.params.pieces.read24.widths R =
        if R < 8 then 8 - R else if R < 16 then 16 - R else 24 - R))

/-- `RD36` (41_field_combinators.md R104), for every piece list the table can give it; the counts of R107 for the
list of R100. -/
def Obligations.Rd36Meaning : Prop :=
  ∀ (s : State) (R : Nat), Avail s R →
    decode 0x43 = .ok .rd36 ∧
    (36 ≤ R → exec .rd36 s = .next { s with
      cur := s.cur.advance 36, value := BitVec.ofNat 64 (field s s.cur.addr 36), vValue := true, kind := .ok, needed := 0 }) ∧
    (R < 36 → (∃ t, exec .rd36 s = .next t ∧
        Failed s t [.value] .incomplete (neededBy s.params.pieces.read36.widths R)) ∧
      (s.params.pieces.read36.widths = [4, 8, 8, 8, 8] → neededBy s.params.pieces.read36.widths R =
        if R < 4 then 4 - R else if R < 12 then 12 - R else if R < 20 then 20 - R else if R < 28 then 28 - R
        else 36 - R))

/-- `SKIP128`: no result register and no valid flag changes in either outcome (41_field_combinators.md R105). For every
piece list the table can give it; the count of R105 for the list of R100. -/
def Obligations.Skip128Meaning : Prop :=
  ∀ (s : State) (R : Nat), Avail s R →
    decode 0x44 = .ok .skip128 ∧
    (128 ≤ R → exec .skip128 s = .next { s with cur := s.cur.advance 128, kind := .ok, needed := 0 }) ∧
    (R < 128 → exec .skip128 s = .next { s with
        kind := .incomplete, needed := BitVec.ofNat 7 (neededBy s.params.pieces.skip128.widths R) } ∧
      (s.params.pieces.skip128.widths = List.replicate 16 8 →
        neededBy s.params.pieces.skip128.widths R = 8 - R % 8))

/-- `MAGIC`: Incomplete when fewer than 32 bits remain, whatever they hold; else OK or Invalid by the 32 bits at the
cursor; no result register and no valid flag changes (44_stream_decoder.md R141, R142). -/
def Obligations.MagicMeaning : Prop :=
  ∀ (s : State) (R : Nat), Avail s R →
    decode 0x80 = .ok .magic ∧
    (R < 32 → exec .magic s = .next { s with kind := .incomplete, needed := BitVec.ofNat 7 (8 - R % 8) }) ∧
    (32 ≤ R → field s s.cur.addr 32 = magicWord →
      exec .magic s = .next { s with cur := s.cur.advance 32, kind := .ok, needed := 0 }) ∧
    (32 ≤ R → field s s.cur.addr 32 ≠ magicWord → exec .magic s = .next { s with kind := .invalid, needed := 0 })

/-- `BLKHDR` (42_block_header.md R121), for every piece list the table can give its 24-bit read; the counts of R121 for
the list of 41_field_combinators.md R100. -/
def Obligations.BlkhdrMeaning : Prop :=
  ∀ (s : State) (R : Nat), Avail s R →
    decode 0x81 = .ok .blkhdr ∧
    (32 ≤ R → exec .blkhdr s = .next { s with
      cur := s.cur.advance 32, bh := headerAt s s.cur.addr, vBh := true, kind := .ok, needed := 0 }) ∧
    (R < 32 → (∃ t, exec .blkhdr s = .next t ∧
        Failed s t [.bh] .incomplete (neededBy (headerPieces s.params.pieces) R)) ∧
      (s.params.pieces.read24.widths = [8, 8, 8] → neededBy (headerPieces s.params.pieces) R =
        if R < 1 then 1 else if R < 8 then 8 - R else if R < 16 then 16 - R else if R < 24 then 24 - R else 32 - R))

/-- `STRINFO` (43_stream_info.md R131), for every piece table. -/
def Obligations.StrinfoMeaning : Prop :=
  ∀ (s : State) (R : Nat), Avail s R →
    decode 0x82 = .ok .strinfo ∧
    (272 ≤ R → exec .strinfo s = .next { s with
      cur := s.cur.advance 272, si := infoAt s s.cur.addr, vSi := true, kind := .ok, needed := 0 }) ∧
    (R < 272 → ∃ t, exec .strinfo s = .next t ∧ Failed s t [.si] .incomplete (neededBy (infoPieces s.params.pieces) R))

/-- `STREAM`: the six cases of its input in the order the spec tests them (44_stream_decoder.md R145, R149). The header
is accepted when `STRICT_HDR = 0`, or when it is (StreamInfo, 34). For every piece table. -/
def Obligations.StreamMeaning : Prop :=
  ∀ (s : State) (R : Nat), Avail s R →
    decode 0x83 = .ok .stream ∧
    (R < 32 → ∃ t, exec .stream s = .next t ∧ Failed s t [.bh, .si] .incomplete (neededBy (streamPieces s.params.pieces) R)) ∧
    (32 ≤ R → field s s.cur.addr 32 ≠ magicWord →
      ∃ t, exec .stream s = .next t ∧ Failed s t [.bh, .si] .invalid 0) ∧
    (32 ≤ R → R < 64 → field s s.cur.addr 32 = magicWord →
      ∃ t, exec .stream s = .next t ∧ Failed s t [.bh, .si] .incomplete (neededBy (streamPieces s.params.pieces) R)) ∧
    (64 ≤ R → field s s.cur.addr 32 = magicWord → ¬ HeaderAccepted s →
      ∃ t, exec .stream s = .next t ∧ Failed s t [.bh, .si] .invalid 0) ∧
    (64 ≤ R → R < 336 → field s s.cur.addr 32 = magicWord → HeaderAccepted s →
      ∃ t, exec .stream s = .next t ∧ Failed s t [.bh, .si] .incomplete (neededBy (streamPieces s.params.pieces) R)) ∧
    (336 ≤ R → field s s.cur.addr 32 = magicWord → HeaderAccepted s →
      exec .stream s = .next { s with
        cur := s.cur.advance 336, bh := headerAt s (s.cur.addr + 32), vBh := true,
        si := infoAt s (s.cur.addr + 64), vSi := true, kind := .ok, needed := 0 })

/-- The count of a short STRINFO, by the prefix sums of its pieces, for every piece table; with the table of
41_field_combinators.md R100 the prefix sums and the counts for whole bytes are those of 43_stream_info.md R132. -/
def Obligations.StrinfoNeededCounts : Prop :=
  ∀ (s : State) (R : Nat), Avail s R → R < 272 →
    ∃ t, exec .strinfo s = .next t ∧ t.kind = .incomplete ∧
      (∃ P ∈ prefixSums (infoPieces s.params.pieces), R < P ∧
        (∀ Q ∈ prefixSums (infoPieces s.params.pieces), R < Q → P ≤ Q) ∧ t.needed.toNat = P - R) ∧
      (s.params.pieces = .tabulated → prefixSums (infoPieces s.params.pieces) = infoPrefixes ∧
        ∀ m : Nat, R = 8 * m → t.needed.toNat = if m = 12 ∨ m = 13 then 4 else 8)

/-- The count of an Incomplete STREAM, by the prefix sums of its pieces, for every piece table; with the table of
41_field_combinators.md R100 the prefix sums and the counts for whole bytes are those of 44_stream_decoder.md R150. -/
def Obligations.StreamNeededCounts : Prop :=
  ∀ (s t : State) (R : Nat), Avail s R → exec .stream s = .next t → t.kind = .incomplete →
    (∃ P ∈ prefixSums (streamPieces s.params.pieces), R < P ∧
        (∀ Q ∈ prefixSums (streamPieces s.params.pieces), R < Q → P ≤ Q) ∧ t.needed.toNat = P - R) ∧
    (s.params.pieces = .tabulated → prefixSums (streamPieces s.params.pieces) = streamPrefixes ∧
      ∀ m : Nat, R = 8 * m → t.needed.toNat = if m = 4 then 1 else if m = 20 ∨ m = 21 then 4 else 8)

/-- From a byte-aligned cursor with four bytes left, MAGIC ends OK exactly on `66 4C 61 43`, having moved four bytes;
otherwise it ends Invalid, not having moved (44_stream_decoder.md R143). -/
def Obligations.MagicIsFourBytes : Prop :=
  ∀ s : State, s.cur.bit = 0 → s.cur.byte + 4 ≤ s.bufLen →
    ∃ t, exec .magic s = .next t ∧
      (t.kind = .ok ∨ t.kind = .invalid) ∧
      (t.kind = .ok ↔ s.memByte s.cur.byte = 0x66 ∧ s.memByte (s.cur.byte + 1) = 0x4C ∧
        s.memByte (s.cur.byte + 2) = 0x61 ∧ s.memByte (s.cur.byte + 3) = 0x43) ∧
      (t.kind = .ok → t.cur = ⟨s.cur.byte + 4, 0⟩) ∧ (t.kind = .invalid → t.cur = s.cur)

/-- The map from tags to codes: total on the 128 tags, nine codes, 120 tags Reserved (30_encoding.md R72, R73). -/
def Obligations.BlockTypeMap : Prop :=
  (∀ t ∈ List.range 128, (blockTypeOf t).code = BitVec.ofNat 4 (typeCode t)) ∧
  ((List.range 128).filter fun t => decide (blockTypeOf t = .reserved)).length = 120 ∧
  [blockTypeOf 0, blockTypeOf 1, blockTypeOf 2, blockTypeOf 3, blockTypeOf 4, blockTypeOf 5, blockTypeOf 6,
    blockTypeOf 127] = [.streamInfo, .padding, .application, .seekTable, .vorbisComment, .cueSheet, .picture, .btInvalid]

/-- The fields of STATUS (10_state.md R16). -/
def Obligations.StatusLayout : Prop :=
  ∀ s : State, s.status.extractLsb' 0 2 = s.kind.code ∧ s.status.getLsbD 2 = s.vValue ∧
    s.status.getLsbD 3 = s.vBh ∧ s.status.getLsbD 4 = s.vSi ∧
    (Kind.ok.code = 0 ∧ Kind.incomplete.code = 1 ∧ Kind.invalid.code = 2 ∧ Kind.badcmd.code = 3)

/-! ### What holds of every command -/

/-- A command that succeeds moves the cursor by the bits it consumes; one that fails leaves it (10_state.md R12). -/
def Obligations.CursorMovesByBitsConsumed : Prop :=
  ∀ (i : Instr) (s t : State), exec i s = .next t →
    (t.kind = .ok → t.cur = s.cur.advance (bitsConsumed i)) ∧ (t.kind ≠ .ok → t.cur = s.cur)

/-- Every command preserves well-formedness of the cursor, which never wraps (10_state.md R13, R14). -/
def Obligations.CommandKeepsCursorWellFormed : Prop :=
  ∀ (i : Instr) (s t : State), exec i s = .next t → t.cursorWf t.cur ∧ 8 * t.cur.byte + t.cur.bit.toNat ≤ 8 * t.bufLen

/-- NEEDED after a command: 1 to 64 after Incomplete, 0 after any other outcome, for every command word
(10_state.md R17). -/
def Obligations.NeededAgreesWithKind : Prop :=
  ∀ (w : CommandWord) (s t : State), hostCmd w s = .next t →
    (t.kind = .incomplete → 1 ≤ t.needed.toNat ∧ t.needed.toNat ≤ 64) ∧ (t.kind ≠ .incomplete → t.needed = 0)

/-- The valid flags: set on success and cleared on failure for the target groups; the other groups keep registers and
flags (10_state.md R18). -/
def Obligations.ResultGroupsFollowOutcome : Prop :=
  ∀ (i : Instr) (s t : State), exec i s = .next t →
    (Group.value ∈ targetGroups i → (t.vValue = true ↔ t.kind = .ok)) ∧
    (Group.bh ∈ targetGroups i → (t.vBh = true ↔ t.kind = .ok)) ∧
    (Group.si ∈ targetGroups i → (t.vSi = true ↔ t.kind = .ok)) ∧
    (Group.value ∉ targetGroups i → t.vValue = s.vValue ∧ t.value = s.value) ∧
    (Group.bh ∉ targetGroups i → t.vBh = s.vBh ∧ t.bh = s.bh) ∧
    (Group.si ∉ targetGroups i → t.vSi = s.vSi ∧ t.si = s.si)

/-- Failures are precise: only KIND, NEEDED and the target groups differ (60_exceptions.md R184, R187). -/
def Obligations.FailureIsPrecise : Prop :=
  ∀ (i : Instr) (s t : State), exec i s = .next t → t.kind ≠ .ok →
    Failed s t (targetGroups i) t.kind t.needed.toNat ∧ (t.kind = .incomplete ∨ t.kind = .invalid)

/-- No false success (60_exceptions.md R189): OK only if all the bits were there and every content check passed. -/
def Obligations.NoFalseSuccess : Prop :=
  ∀ (i : Instr) (s t : State), exec i s = .next t → t.kind = .ok →
    s.cur.addr + bitsConsumed i ≤ 8 * s.bufLen ∧
    (i = .magic ∨ i = .stream → field s s.cur.addr 32 = magicWord) ∧
    (i = .stream → HeaderAccepted s)

/-- Only MAGIC and STREAM can end Invalid (60_exceptions.md R180), so no bit pattern of a block header or STREAMINFO is
illegal to BLKHDR or STRINFO (30_encoding.md R78). -/
def Obligations.InvalidOnlyFromMagicAndStream : Prop :=
  ∀ (i : Instr) (s t : State), exec i s = .next t → t.kind = .invalid → i = .magic ∨ i = .stream

/-- The extension law (40_bit_cursor.md R96): more bytes never change a result already obtained. -/
def Obligations.MoreBytesKeepSuccess : Prop :=
  ∀ (i : Instr) (s t s' : State), ExtendsInput s t → exec i s = .next s' → s'.kind = .ok →
    ∃ t', exec i t = .next t' ∧ t'.kind = .ok ∧ t'.cur = s'.cur ∧ SameResults (targetGroups i) s' t'

/-- Purity (40_bit_cursor.md R97, 20_memory.md R47): a command is a function of the cursor, the length, the bytes below
it and STRICT_HDR; bytes at or above BUF_LEN (20_memory.md R41), old results and the old status influence nothing. The
piece table decides NEEDED and nothing else (41_field_combinators.md R100). -/
def Obligations.CommandsArePure : Prop :=
  ∀ (i : Instr) (s t s' : State), SameInput s t → exec i s = .next s' →
    ∃ t', exec i t = .next t' ∧ t'.kind = s'.kind ∧ t'.cur = s'.cur ∧
      (t.params.pieces = s.params.pieces → t'.needed = s'.needed) ∧
      (s'.kind = .ok → SameResults (targetGroups i) s' t')

/-- STREAM is MAGIC, BLKHDR, STRINFO in sequence when it ends OK, and conversely when `STRICT_HDR = 0`
(44_stream_decoder.md R151). -/
def Obligations.StreamIsThreeCommands : Prop :=
  (∀ s t : State, exec .stream s = .next t → t.kind = .ok →
    ∃ t1 t2, exec .magic s = .next t1 ∧ t1.kind = .ok ∧ exec .blkhdr t1 = .next t2 ∧ t2.kind = .ok ∧
      exec .strinfo t2 = .next t) ∧
  (∀ s t1 t2 t : State, s.params.strictHdr = false →
    exec .magic s = .next t1 → t1.kind = .ok → exec .blkhdr t1 = .next t2 → t2.kind = .ok →
    exec .strinfo t2 = .next t → t.kind = .ok → exec .stream s = .next t)

/-- Round trip (43_stream_info.md R134): STRINFO on the 34 bytes that encode a stream info, with any checksum, gives
that stream info. -/
def Obligations.StreamInfoRoundTrip : Prop :=
  ∀ (s : State) (i : StreamInfo) (ck : Nat), ck < 2 ^ 128 →
    1 ≤ i.nch.toNat → i.nch.toNat ≤ 8 → 1 ≤ i.bps.toNat → i.bps.toNat ≤ 32 →
    s.cur = ⟨0, 0⟩ → s.bufLen = 34 →
    (∀ k, k < 34 → s.memByte k = BitVec.ofNat 8 (packedInfo i ck / 2 ^ (8 * (33 - k)))) →
    ∃ t, exec .strinfo s = .next t ∧ t.kind = .ok ∧ t.si = i ∧ t.vSi = true ∧ t.cur = ⟨34, 0⟩

/-- The retry protocol (60_exceptions.md R190): after an Incomplete command, more bytes behind the old ones so that the
whole command's bits remain make the same command end in another outcome, from the same cursor. -/
def Obligations.RetryWithEnoughBytes : Prop :=
  ∀ (i : Instr) (s t u : State), exec i s = .next t → t.kind = .incomplete → u.cur = t.cur →
    t.bufLen ≤ u.bufLen → (bitsConsumed i : Int) ≤ u.remaining u.cur →
    ∃ v, exec i u = .next v ∧ v.kind ≠ .incomplete

/-! ### Frames -/

/-- What RDBITS, RD16, RD20, RD24 and RD36 leave unchanged: the block-header and stream-info groups with their flags,
the buffer, the length, the parameters (40_bit_cursor.md R94, 41_field_combinators.md R101 to R104). -/
def Obligations.FrameOfValueCommands : Prop :=
  ∀ (i : Instr) (n : Nat) (s t : State), i = .rdbits n ∨ i = .rd16 ∨ i = .rd20 ∨ i = .rd24 ∨ i = .rd36 →
    exec i s = .next t → KeepsInput s t ∧ t.bh = s.bh ∧ t.vBh = s.vBh ∧ t.si = s.si ∧ t.vSi = s.vSi

/-- What SKIP128 and MAGIC leave unchanged: every result register and valid flag, the buffer, the length, the
parameters (41_field_combinators.md R105, 44_stream_decoder.md R141). -/
def Obligations.FrameOfSkip128AndMagic : Prop :=
  ∀ (i : Instr) (s t : State), i = .skip128 ∨ i = .magic → exec i s = .next t →
    KeepsInput s t ∧ t.value = s.value ∧ t.vValue = s.vValue ∧ t.bh = s.bh ∧ t.vBh = s.vBh ∧ t.si = s.si ∧
      t.vSi = s.vSi

/-- What BLKHDR and STRINFO leave unchanged: VALUE, each other's group, the flags of both, the buffer, the length, the
parameters (42_block_header.md R121, 43_stream_info.md R131). -/
def Obligations.FrameOfBlkhdrAndStrinfo : Prop :=
  (∀ s t : State, exec .blkhdr s = .next t →
    KeepsInput s t ∧ t.value = s.value ∧ t.vValue = s.vValue ∧ t.si = s.si ∧ t.vSi = s.vSi) ∧
  (∀ s t : State, exec .strinfo s = .next t →
    KeepsInput s t ∧ t.value = s.value ∧ t.vValue = s.vValue ∧ t.bh = s.bh ∧ t.vBh = s.vBh)

/-- What STREAM leaves unchanged (44_stream_decoder.md R145). -/
def Obligations.FrameOfStream : Prop :=
  ∀ s t : State, exec .stream s = .next t → KeepsInput s t ∧ t.value = s.value ∧ t.vValue = s.vValue

/-! ### Where a command stops -/

/-- Every command of the hardware completes at a well-formed cursor (45_host_access.md R164). At an ill-formed one, which
is outside the spec, it is refused: the model's choice (log 12), as 10_state.md R13 and 93_implementation_defined.md U3
advise. -/
def Obligations.RefusedExactlyAtIllFormedCursor : Prop :=
  ∀ (i : Instr) (s : State), i.wellFormed = true →
    (¬ s.cursorWf s.cur → exec i s = .refused .illFormedCursor) ∧ (s.cursorWf s.cur → ∃ t, exec i s = .next t)

/-- A width outside `[1,64]` is refused; no word encodes one (30_encoding.md R63, 91_not_in_source.md N7). -/
def Obligations.WidthOutOfRangeRefused : Prop :=
  (∀ (n : Nat) (s : State), n = 0 ∨ 64 < n → exec (.rdbits n) s = .refused .widthOutOfRange) ∧
  (∀ (n : Nat) (w : CommandWord), n = 0 ∨ 64 < n → decode w ≠ .ok (.rdbits n))

/-! ### The host -/

/-- `HostBufWrite(i, v)` (45_host_access.md R161): that byte, and nothing else. -/
def Obligations.HostBufWriteStoresOneByte : Prop :=
  ∀ (s : State) (i : Nat) (v : Byte), i < s.params.bufCap →
    ∃ m, hostBufWrite i v s = .next { s with buf := m } ∧
      State.memByte { s with buf := m } i = v ∧ ∀ j, j ≠ i → State.memByte { s with buf := m } j = s.memByte j

/-- `HostWrite` to the three writable registers: the register, and nothing else (45_host_access.md R163). -/
def Obligations.HostWriteOfWritableRegisters : Prop :=
  ∀ (s : State) (v : Nat),
    (v ≤ s.params.bufCap → hostWrite 0x03 v s = .next { s with cur := ⟨v, s.cur.bit⟩ }) ∧
    (v ≤ 7 → ∃ t, hostWrite 0x04 v s = .next t ∧ t.cur.bit.toNat = v ∧ t = { s with cur := ⟨s.cur.byte, t.cur.bit⟩ }) ∧
    (v ≤ s.params.bufCap → hostWrite 0x05 v s = .next { s with bufLen := v })

/-- A `HostBufWrite` to an index at or above BUF_CAP, and a `HostWrite` of a value the register cannot hold, are refused
(93_implementation_defined.md U5, 45_host_access.md R169). For a value above 255 written to CMD this is the model's
reading (log 11). -/
def Obligations.HostAccessOutOfRangeStops : Prop :=
  ∀ (s : State) (v : Nat),
    (∀ b : Byte, s.params.bufCap ≤ v → hostBufWrite v b s = .refused .bufIndexOutsideBuffer) ∧
    (s.params.bufCap < v → hostWrite 0x03 v s = .refused .hostValueOutOfRange ∧
      hostWrite 0x05 v s = .refused .hostValueOutOfRange) ∧
    (7 < v → hostWrite 0x04 v s = .refused .hostValueOutOfRange) ∧
    (255 < v → hostWrite 0x00 v s = .refused .hostValueOutOfRange)

/-- `HostWrite` to a read-only or unassigned register number is ignored, whatever the value (45_host_access.md R165,
R166); a read of an unassigned number gives no value of the machine's (R166). -/
def Obligations.OtherRegisterWritesIgnored : Prop :=
  (∀ (num : RegNum) (v : Nat) (s : State),
    num.toNat = 0x01 ∨ num.toNat = 0x02 ∨ 0x06 ≤ num.toNat → hostWrite num v s = .next s) ∧
  (∀ (num : RegNum) (s : State), 0x12 ≤ num.toNat → s.register num = none)

/-- `HostRead` returns the register's value where the spec gives it one, and changes no register (45_host_access.md R162,
10_state.md R18). `hostData` and `draws` are the model's choices of form (log 5, log 17). -/
def Obligations.HostReadReturnsRegister : Prop :=
  ∀ (s : State) (num : RegNum),
    (∃ d v, hostRead num s = .next { s with hostData := some v, draws := d } ∧
      (∀ x, s.register num = some x → v = x)) ∧
    s.register 0x01 = some s.status.toNat ∧ s.register 0x02 = some s.needed.toNat ∧
    s.register 0x03 = some s.cur.byte ∧ s.register 0x04 = some s.cur.bit.toNat ∧ s.register 0x05 = some s.bufLen ∧
    s.register 0x06 = (if s.vValue then some s.value.toNat else none) ∧
    s.register 0x07 = (if s.vBh then some s.bh.last.toNat else none) ∧
    s.register 0x08 = (if s.vBh then some s.bh.blockType.toNat else none) ∧
    s.register 0x09 = (if s.vBh then some s.bh.len.toNat else none) ∧
    s.register 0x0A = (if s.vSi then some s.si.minBlk.toNat else none) ∧
    s.register 0x0B = (if s.vSi then some s.si.maxBlk.toNat else none) ∧
    s.register 0x0C = (if s.vSi then some s.si.minFrm.toNat else none) ∧
    s.register 0x0D = (if s.vSi then some s.si.maxFrm.toNat else none) ∧
    s.register 0x0E = (if s.vSi then some s.si.rate.toNat else none) ∧
    s.register 0x0F = (if s.vSi then some s.si.nch.toNat else none) ∧
    s.register 0x10 = (if s.vSi then some s.si.bps.toNat else none) ∧
    s.register 0x11 = (if s.vSi then some s.si.total.toNat else none) ∧
    s.register 0x00 = none

/-- `HostCmd(w)` is `HostWrite(0x00, w)` and executes the command the word decodes to (45_host_access.md R164,
10_state.md R23). -/
def Obligations.HostCmdExecutesWord : Prop :=
  ∀ (s : State) (w : CommandWord), hostWrite 0x00 w.toNat s = hostCmd w s ∧
    (∀ i, decode w = .ok i → hostCmd w s = exec i s)

/-- No host transaction but a command or reset touches a result register, a flag, KIND or NEEDED (10_state.md R22,
45_host_access.md R161 to R166). -/
def Obligations.HostAccessKeepsResults : Prop :=
  ∀ (x : Transaction) (s t : State), (∀ w, x ≠ .cmd w) → (∀ v, x ≠ .write 0x00 v) → x ≠ .reset →
    perform x s = .next t →
    t.kind = s.kind ∧ t.needed = s.needed ∧ t.vValue = s.vValue ∧ t.vBh = s.vBh ∧ t.vSi = s.vSi ∧
      t.value = s.value ∧ t.bh = s.bh ∧ t.si = s.si

/-- The macro `BUF b0 ... bk` (30_encoding.md R66): after its transactions the buffer holds the bytes, BUF_LEN is their
number, and every other byte and the rest of the machine are as before. That the transactions stand in the list
`pending` and a step takes the oldest is the model's choice of form (log 3) for the order of 20_memory.md R51 and
60_exceptions.md R202. -/
def Obligations.BufMacroLoadsBuffer : Prop :=
  ∀ (s : State) (bytes : List Byte) (rest : List Transaction) (len : Nat), bytes.length ≤ s.params.bufCap →
    s.pending = (Line.buf bytes).transactions len ++ rest →
    ∃ m, core.run (bytes.length + 1) s = .next { s with buf := m, bufLen := bytes.length, pending := rest } ∧
      (∀ (i : Nat) (h : i < bytes.length), State.memByte { s with buf := m } i = bytes[i]) ∧
      (∀ j, bytes.length ≤ j → State.memByte { s with buf := m } j = s.memByte j)

/-! ### Reset and the step -/

/-- The reset event (70_reset_and_hazards.md R210, R212): the reset values of 10_state.md R31, every valid flag 0, no
byte of the buffer written; the parameters stay. That the host's side stays is the model's choice (log 9). -/
def Obligations.ResetEventRestoresResetValues : Prop :=
  ∀ s : State, ∃ t, perform .reset s = .next t ∧ t.cur = ⟨0, 0⟩ ∧ t.bufLen = 0 ∧ t.kind = .ok ∧ t.needed = 0 ∧
    t.vValue = false ∧ t.vBh = false ∧ t.vSi = false ∧ t.status = 0 ∧ t.buf = [] ∧ t.params = s.params ∧
    t.pending = s.pending ∧ t.cursorWf t.cur

/-- The state after reset, for every choice of parameters (10_state.md R31), and the parameters of this hardware
(00_scope.md R5, R6, 41_field_combinators.md R100). -/
def Obligations.ResetValues : Prop :=
  (∀ p : Params, (State.resetWith p).cur = ⟨0, 0⟩ ∧ (State.resetWith p).bufLen = 0 ∧ (State.resetWith p).kind = .ok ∧
    (State.resetWith p).vValue = false ∧ (State.resetWith p).vBh = false ∧ (State.resetWith p).vSi = false ∧
    (State.resetWith p).needed = 0) ∧
  State.reset = State.resetWith State.reset.params ∧ State.reset.params.strictHdr = false ∧
    1 ≤ State.reset.params.bufCap ∧ State.reset.params.pieces = .tabulated ∧
  PieceTable.tabulated.read16.widths = [8, 8] ∧ PieceTable.tabulated.read20.widths = [8, 8, 4] ∧
  PieceTable.tabulated.read24.widths = [8, 8, 8] ∧ PieceTable.tabulated.read36.widths = [4, 8, 8, 8, 8] ∧
  PieceTable.tabulated.skip128.widths = [8, 8, 8, 8, 8, 8, 8, 8, 8, 8, 8, 8, 8, 8, 8, 8]

/-- The state after reset is a good state (00_scope.md R5, 10_state.md R31). -/
def Obligations.ResetIsGood : Prop := Inv State.reset

/-- Every step keeps the good states (10_state.md R14, R15, R17, R20, R21). -/
def Obligations.StepKeepsGoodStates : Prop := ∀ s t : State, Inv s → step s = .next t → Inv t

/-- A step is the host's next transaction; with none the block is idle (60_exceptions.md R202, R206, 20_memory.md
R51). The list `pending` is the model's choice of form (log 3). -/
def Obligations.StepPerformsNextTransaction : Prop :=
  (∀ (s : State) (x : Transaction) (rest : List Transaction), s.pending = x :: rest →
    step s = perform x { s with pending := rest }) ∧
  (∀ s : State, s.pending = [] → step s = .next s)

/-- When the host's next transaction is a command word that decodes to `i`, the step is `exec` of `i` on the state
without that transaction (45_host_access.md R164); the same for a word placed by `withFetchWord`. The list `pending` and
the placement are the model's choices of form (log 3, log 4). -/
def Obligations.StepRunsDecodedCommand : Prop :=
  (∀ (s : State) (w : CommandWord) (rest : List Transaction) (i : Instr), s.pending = .cmd w :: rest →
    decode w = .ok i → step s = exec i { s with pending := rest }) ∧
  (∀ (s : State) (nbits w : Nat) (i : Instr), decodeTableWord nbits w = some i →
    step (s.withFetchWord nbits w) = exec i s)
end

