-- ==== Sys2Proof/Laws/Read.lean ====
section
/-! SUPPORT. The cursor as one bit address, the primitive read, and sequences of primitive reads. -/

namespace Sys2Proof.Machine

/-! ### The cursor -/

theorem Cursor.bit_lt (c : Cursor) : c.bit.toNat < 8 := c.bit.isLt

/-- Two cursors with one bit address are equal. -/
theorem Cursor.eq_of_addr {c d : Cursor} (h : c.addr = d.addr) : c = d := by
  obtain ⟨y, b⟩ := c
  obtain ⟨y', b'⟩ := d
  have := b.isLt
  have := b'.isLt
  simp only [Cursor.addr] at h
  have hy : y = y' := by omega
  have hb : b = b' := by apply BitVec.eq_of_toNat_eq; omega
  rw [hy, hb]

@[simp] theorem Cursor.addr_advance (c : Cursor) (n : Nat) : (c.advance n).addr = c.addr + n := by
  simp only [Cursor.addr, Cursor.advance, BitVec.toNat_ofNat]
  omega

@[simp] theorem Cursor.advance_zero (c : Cursor) : c.advance 0 = c := Cursor.eq_of_addr (by simp)

@[simp] theorem Cursor.advance_advance (c : Cursor) (m n : Nat) : (c.advance m).advance n = c.advance (m + n) :=
  Cursor.eq_of_addr (by simp [Nat.add_assoc])

theorem remaining_eq (s : State) (c : Cursor) : s.remaining c = (8 * s.bufLen : Nat) - (c.addr : Int) := by
  simp only [State.remaining, Cursor.addr]
  push_cast
  ring

theorem cursorWf_iff (s : State) (c : Cursor) : s.cursorWf c ↔ c.addr ≤ 8 * s.bufLen := by
  have hb := c.bit_lt
  simp only [State.cursorWf, Cursor.addr]
  constructor
  · rintro ⟨h1, h2⟩
    rcases Nat.lt_or_eq_of_le h1 with h | h
    · omega
    · have : c.bit.toNat = 0 := by rw [h2 h]; rfl
      omega
  · intro h
    refine ⟨by omega, fun h' => ?_⟩
    apply BitVec.eq_of_toNat_eq
    show c.bit.toNat = 0
    omega

/-! ### The primitive read -/

theorem bitAt_le (s : State) (c : Cursor) (k : Nat) : s.bitAt c k ≤ 1 := by
  unfold State.bitAt
  exact Bool.toNat_le _

theorem bitAt_advance (s : State) (c : Cursor) (m k : Nat) : s.bitAt (c.advance m) k = s.bitAt c (m + k) := by
  have h := c.bit_lt
  simp only [State.bitAt, Cursor.advance, BitVec.toNat_ofNat]
  congr 3 <;> omega

/-- Reading `m` bits and then `n` more is reading `m + n` (20_memory.md R44). -/
theorem bitsAt_add (s : State) (c : Cursor) (m n : Nat) :
    s.bitsAt c (m + n) = s.bitsAt c m * 2 ^ n + s.bitsAt (c.advance m) n := by
  induction n with
  | zero => simp [State.bitsAt]
  | succ n ih => rw [← Nat.add_assoc, State.bitsAt, ih, State.bitsAt, bitAt_advance]; ring

theorem bitsAt_lt (s : State) (c : Cursor) (n : Nat) : s.bitsAt c n < 2 ^ n := by
  induction n with
  | zero => simp [State.bitsAt]
  | succ n ih =>
    have := bitAt_le s c n
    rw [State.bitsAt, Nat.pow_succ]
    omega

/-- What a primitive read depends on: the length and the bytes below it. -/
theorem bitAt_congr {s t : State} (c : Cursor) (k : Nat) (hk : c.addr + k < 8 * s.bufLen)
    (hb : ∀ i, i < s.bufLen → t.memByte i = s.memByte i) : t.bitAt c k = s.bitAt c k := by
  simp only [Cursor.addr] at hk
  simp only [State.bitAt]
  rw [hb]
  omega

theorem bitsAt_congr {s t : State} (c : Cursor) (n : Nat) (hn : c.addr + n ≤ 8 * s.bufLen)
    (hb : ∀ i, i < s.bufLen → t.memByte i = s.memByte i) : t.bitsAt c n = s.bitsAt c n := by
  induction n with
  | zero => rfl
  | succ n ih => rw [State.bitsAt, State.bitsAt, ih (by omega), bitAt_congr c n (by omega) hb]

/-- Everything a primitive read can do at a well-formed cursor (40_bit_cursor.md R92). -/
theorem take_eq (s : State) (c : Cursor) (n : Nat) (h : s.cursorWf c) :
    s.take c n = if c.addr + n ≤ 8 * s.bufLen then .ok (c.advance n, s.bitsAt c n)
      else .error (.incomplete (n - (8 * s.bufLen - c.addr))) := by
  rw [cursorWf_iff] at h
  rw [State.take, remaining_eq]
  by_cases hc : c.addr + n ≤ 8 * s.bufLen
  · rw [if_neg (by omega), if_pos hc]
  · rw [if_pos (by omega), if_neg hc]
    congr 2
    omega

/-! ### Sequences -/

/-- The count of the first piece that fails when `R` bits remain (41_field_combinators.md R107): 0 if none does. -/
def shortfall : List Nat → Nat → Nat
  | [], _ => 0
  | w :: ws, R => if R < w then w - R else shortfall ws (R - w)

theorem shortfall_append (ws vs : List Nat) (R : Nat) :
    shortfall (ws ++ vs) R = if R < ws.sum then shortfall ws R else shortfall vs (R - ws.sum) := by
  induction ws generalizing R with
  | nil => simp
  | cons w ws ih =>
    simp only [List.cons_append, shortfall, List.sum_cons, ih]
    split
    · rw [if_pos (by omega)]
    · by_cases h : R - w < ws.sum
      · rw [if_pos h, if_pos (by omega)]
      · rw [if_neg h, if_neg (by omega)]
        congr 1
        omega

/-- `r` is what reading the pieces `ws` from `c` gives when their bits decode to `v`: the value and the cursor behind
them if all bits remain, else Incomplete with the count of the first piece that fails. -/
structure ReadsAs {α : Type} (s : State) (c : Cursor) (ws : List Nat) (r : Except Raise (Cursor × α)) (v : α) :
    Prop where
  ok : c.addr + ws.sum ≤ 8 * s.bufLen → r = .ok (c.advance ws.sum, v)
  short : 8 * s.bufLen < c.addr + ws.sum → r = .error (.incomplete (shortfall ws (8 * s.bufLen - c.addr)))

theorem readsAs_take (s : State) (c : Cursor) (n : Nat) (h : s.cursorWf c) :
    ReadsAs s c [n] (s.take c n) (s.bitsAt c n) := by
  rw [take_eq s c n h]
  rw [cursorWf_iff] at h
  constructor
  · intro hc; simpa using hc
  · intro hc
    simp only [List.sum_cons, List.sum_nil, Nat.add_zero] at hc
    rw [if_neg (by omega)]
    simp only [shortfall]
    rw [if_pos (by omega)]

/-- Reading in sequence: a read of `ws` followed by a read of `vs` is a read of `ws ++ vs`. -/
theorem ReadsAs.bind {α β : Type} {s : State} {c : Cursor} {ws vs : List Nat} {r : Except Raise (Cursor × α)} {v : α}
    {f : Cursor × α → Except Raise (Cursor × β)} {u : β} (hc : s.cursorWf c) (hr : ReadsAs s c ws r v)
    (hf : s.cursorWf (c.advance ws.sum) → ReadsAs s (c.advance ws.sum) vs (f (c.advance ws.sum, v)) u) :
    ReadsAs s c (ws ++ vs) (r >>= f) u := by
  rw [cursorWf_iff] at hc
  by_cases h : c.addr + ws.sum ≤ 8 * s.bufLen
  · have hf' := hf (by rw [cursorWf_iff]; simpa using h)
    rw [hr.ok h]
    constructor
    · intro h'
      rw [List.sum_append] at h' ⊢
      have := hf'.ok (by rw [Cursor.addr_advance]; omega)
      rw [Cursor.advance_advance] at this
      exact this
    · intro h'
      rw [List.sum_append] at h'
      rw [shortfall_append, if_neg (by omega)]
      have := hf'.short (by rw [Cursor.addr_advance]; omega)
      rw [Cursor.addr_advance] at this
      rw [show 8 * s.bufLen - c.addr - ws.sum = 8 * s.bufLen - (c.addr + ws.sum) by omega]
      exact this
  · rw [hr.short (by omega)]
    constructor
    · intro h'; rw [List.sum_append] at h'; omega
    · intro h'
      rw [shortfall_append, if_pos (by omega)]
      rfl

/-- The same for a read of `n` bits whose pieces are a list the table gives. -/
theorem ReadsAs.bind_of_sum {α β : Type} {s : State} {c : Cursor} {ws vs : List Nat} {n : Nat}
    {r : Except Raise (Cursor × α)} {v : α} {f : Cursor × α → Except Raise (Cursor × β)} {u : β} (hn : ws.sum = n)
    (hc : s.cursorWf c) (hr : ReadsAs s c ws r v)
    (hf : s.cursorWf (c.advance n) → ReadsAs s (c.advance n) vs (f (c.advance n, v)) u) :
    ReadsAs s c (ws ++ vs) (r >>= f) u := by
  subst hn
  exact hr.bind hc hf

theorem ReadsAs.pure {α : Type} (s : State) (c : Cursor) (v : α) (h : s.cursorWf c) :
    ReadsAs s c [] (Pure.pure (c, v)) v := by
  rw [cursorWf_iff] at h
  exact ⟨fun _ => by simp [Pure.pure, Except.pure], fun h' => by simp at h'; omega⟩

theorem takeSeqFrom_cons (s : State) (w : Nat) (ws : List Nat) (c : Cursor) (v : Nat) :
    s.takeSeqFrom (w :: ws) c v = s.take c w >>= fun x => s.takeSeqFrom ws x.1 (v * 2 ^ w + x.2) := by
  rw [State.takeSeqFrom]
  cases s.take c w <;> rfl

theorem readsAs_takeSeqFrom (s : State) (ws : List Nat) (c : Cursor) (v : Nat) (h : s.cursorWf c) :
    ReadsAs s c ws (s.takeSeqFrom ws c v) (v * 2 ^ ws.sum + s.bitsAt c ws.sum) := by
  induction ws generalizing c v with
  | nil => simpa [State.takeSeqFrom, State.bitsAt, Pure.pure, Except.pure] using ReadsAs.pure s c v h
  | cons w ws ih =>
    rw [takeSeqFrom_cons]
    refine (readsAs_take s c w h).bind (vs := ws) h fun h' => ?_
    rw [List.sum_singleton] at h' ⊢
    have := ih (c.advance w) (v * 2 ^ w + s.bitsAt c w) h'
    rw [List.sum_cons, bitsAt_add, Nat.pow_add]
    convert this using 1
    ring

/-- Everything `TakeSeq` can do (41_field_combinators.md R109). -/
theorem readsAs_takeSeq (s : State) (ws : List Nat) (c : Cursor) (h : s.cursorWf c) :
    ReadsAs s c ws (s.takeSeq c ws) (s.bitsAt c ws.sum) := by
  simpa [State.takeSeq] using readsAs_takeSeqFrom s ws c 0 h

/-- A piece list makes up its field (41_field_combinators.md R100). -/
theorem split_sum {n : Nat} (p : Split n) : p.widths.sum = n := by
  have := p.ok
  simp only [splitOk, Bool.and_eq_true, decide_eq_true_eq] at this
  exact this.2

/-- Every piece is one primitive read. -/
theorem split_bounds {n : Nat} (p : Split n) : ∀ w ∈ p.widths, 1 ≤ w ∧ w ≤ 64 := by
  have := p.ok
  simp only [splitOk, Bool.and_eq_true, List.all_eq_true, decide_eq_true_eq] at this
  exact this.1

@[simp] theorem pieces_sum (k : Composite) (t : PieceTable) : (k.pieces t).sum = k.total := by
  cases k <;> exact split_sum _

theorem pieces_bounds (k : Composite) (t : PieceTable) : ∀ w ∈ k.pieces t, 1 ≤ w ∧ w ≤ 64 := by
  cases k <;> exact split_bounds _

/-- Everything a composite read can do (41_field_combinators.md R109). -/
theorem readsAs_takeComposite (s : State) (k : Composite) (c : Cursor) (h : s.cursorWf c) :
    ReadsAs s c (k.pieces s.params.pieces) (s.takeComposite c k) (s.bitsAt c k.total) := by
  rw [← pieces_sum k s.params.pieces]
  exact readsAs_takeSeq s _ c h

theorem skipSeq_cons (s : State) (w : Nat) (ws : List Nat) (c : Cursor) :
    s.skipSeq c (w :: ws) = s.take c w >>= fun x => s.skipSeq x.1 ws := by
  rw [State.skipSeq]
  cases s.take c w <;> rfl

/-- Everything `SkipSeq` can do (41_field_combinators.md R109). -/
theorem readsAs_skipSeq (s : State) (ws : List Nat) (c : Cursor) (h : s.cursorWf c) :
    ReadsAs s c ws (s.skipSeq c ws >>= fun c' => Pure.pure (c', ())) () := by
  induction ws generalizing c with
  | nil => exact ReadsAs.pure s c () h
  | cons w ws ih =>
    rw [skipSeq_cons, bind_assoc]
    refine (readsAs_take s c w h).bind (vs := ws) h fun h' => ?_
    rw [List.sum_singleton] at h' ⊢
    exact ih (c.advance w) h'

end Sys2Proof.Machine
end

