-- ==== Sys2Proof/Laws/State.lean ====
section
/-! SUPPORT. What the state updates shared by the commands do, field by field. -/

namespace Sys2Proof.Machine

variable (s : State) (c : Cursor) (r : Results) (g : Group) (gs : List Group) (e : Raise)

/-! ### Commit -/

@[simp] theorem commit_params : (s.commit c r).params = s.params := rfl
@[simp] theorem commit_cur : (s.commit c r).cur = c := rfl
@[simp] theorem commit_bufLen : (s.commit c r).bufLen = s.bufLen := rfl
@[simp] theorem commit_buf : (s.commit c r).buf = s.buf := rfl
@[simp] theorem commit_kind : (s.commit c r).kind = .ok := rfl
@[simp] theorem commit_needed : (s.commit c r).needed = 0 := rfl
@[simp] theorem commit_value : (s.commit c r).value = r.value.getD s.value := rfl
@[simp] theorem commit_vValue : (s.commit c r).vValue = (r.value.isSome || s.vValue) := rfl
@[simp] theorem commit_bh : (s.commit c r).bh = r.bh.getD s.bh := rfl
@[simp] theorem commit_vBh : (s.commit c r).vBh = (r.bh.isSome || s.vBh) := rfl
@[simp] theorem commit_si : (s.commit c r).si = r.si.getD s.si := rfl
@[simp] theorem commit_vSi : (s.commit c r).vSi = (r.si.isSome || s.vSi) := rfl
@[simp] theorem commit_pending : (s.commit c r).pending = s.pending := rfl
@[simp] theorem commit_hostData : (s.commit c r).hostData = s.hostData := rfl
@[simp] theorem commit_draws : (s.commit c r).draws = s.draws := rfl
@[simp] theorem commit_epoch : (s.commit c r).epoch = s.epoch := rfl

/-! ### A group becomes invalid -/

@[simp] theorem invalidate_params : (s.invalidate g).params = s.params := by cases g <;> rfl
@[simp] theorem invalidate_cur : (s.invalidate g).cur = s.cur := by cases g <;> rfl
@[simp] theorem invalidate_bufLen : (s.invalidate g).bufLen = s.bufLen := by cases g <;> rfl
@[simp] theorem invalidate_buf : (s.invalidate g).buf = s.buf := by cases g <;> rfl
@[simp] theorem invalidate_kind : (s.invalidate g).kind = s.kind := by cases g <;> rfl
@[simp] theorem invalidate_needed : (s.invalidate g).needed = s.needed := by cases g <;> rfl
@[simp] theorem invalidate_pending : (s.invalidate g).pending = s.pending := by cases g <;> rfl
@[simp] theorem invalidate_hostData : (s.invalidate g).hostData = s.hostData := by cases g <;> rfl
@[simp] theorem invalidate_epoch : (s.invalidate g).epoch = s.epoch := by cases g <;> rfl
@[simp] theorem invalidate_draws : (s.invalidate g).draws = s.draws + 1 := by cases g <;> rfl

@[simp] theorem invalidate_vValue : (s.invalidate g).vValue = (s.vValue && decide (g ≠ .value)) := by
  cases g <;> simp [State.invalidate]

@[simp] theorem invalidate_vBh : (s.invalidate g).vBh = (s.vBh && decide (g ≠ .bh)) := by
  cases g <;> simp [State.invalidate]

@[simp] theorem invalidate_vSi : (s.invalidate g).vSi = (s.vSi && decide (g ≠ .si)) := by
  cases g <;> simp [State.invalidate]

theorem invalidate_value (h : g ≠ .value) : (s.invalidate g).value = s.value := by
  cases g <;> first | rfl | exact absurd rfl h

theorem invalidate_bh (h : g ≠ .bh) : (s.invalidate g).bh = s.bh := by
  cases g <;> first | rfl | exact absurd rfl h

theorem invalidate_si (h : g ≠ .si) : (s.invalidate g).si = s.si := by
  cases g <;> first | rfl | exact absurd rfl h

@[simp] theorem invalidateAll_nil : s.invalidateAll [] = s := rfl

@[simp] theorem invalidateAll_cons : s.invalidateAll (g :: gs) = (s.invalidate g).invalidateAll gs := rfl

/-! ### Failure entry -/

@[simp] theorem raise_incomplete (k : Nat) : s.raise gs (.incomplete k) =
    { s.invalidateAll gs with kind := .incomplete, needed := BitVec.ofNat 7 k } := rfl

@[simp] theorem raise_invalid : s.raise gs .invalid = { s.invalidateAll gs with kind := .invalid, needed := 0 } := rfl

/-- What leaves a state unchanged leaves it unchanged over a list of groups. -/
theorem invalidateAll_field {α : Type} (f : State → α) (hf : ∀ (s : State) (g : Group), f (s.invalidate g) = f s) :
    f (s.invalidateAll gs) = f s := by
  induction gs generalizing s with
  | nil => rfl
  | cons g gs ih => rw [invalidateAll_cons, ih, hf]

@[simp] theorem invalidateAll_params : (s.invalidateAll gs).params = s.params :=
  invalidateAll_field s gs State.params invalidate_params
@[simp] theorem invalidateAll_cur : (s.invalidateAll gs).cur = s.cur :=
  invalidateAll_field s gs State.cur invalidate_cur
@[simp] theorem invalidateAll_bufLen : (s.invalidateAll gs).bufLen = s.bufLen :=
  invalidateAll_field s gs State.bufLen invalidate_bufLen
@[simp] theorem invalidateAll_buf : (s.invalidateAll gs).buf = s.buf :=
  invalidateAll_field s gs State.buf invalidate_buf
@[simp] theorem invalidateAll_pending : (s.invalidateAll gs).pending = s.pending :=
  invalidateAll_field s gs State.pending invalidate_pending
@[simp] theorem invalidateAll_hostData : (s.invalidateAll gs).hostData = s.hostData :=
  invalidateAll_field s gs State.hostData invalidate_hostData
@[simp] theorem invalidateAll_epoch : (s.invalidateAll gs).epoch = s.epoch :=
  invalidateAll_field s gs State.epoch invalidate_epoch
@[simp] theorem invalidateAll_kind : (s.invalidateAll gs).kind = s.kind :=
  invalidateAll_field s gs State.kind invalidate_kind
@[simp] theorem invalidateAll_needed : (s.invalidateAll gs).needed = s.needed :=
  invalidateAll_field s gs State.needed invalidate_needed

/-- A flag is 1 after failure entry only if it was 1 and its group is no target (60_exceptions.md R184). -/
@[simp] theorem invalidateAll_vValue : (s.invalidateAll gs).vValue = (s.vValue && decide (Group.value ∉ gs)) := by
  induction gs generalizing s with
  | nil => simp
  | cons g gs ih => rw [invalidateAll_cons, ih]; cases g <;> simp

@[simp] theorem invalidateAll_vBh : (s.invalidateAll gs).vBh = (s.vBh && decide (Group.bh ∉ gs)) := by
  induction gs generalizing s with
  | nil => simp
  | cons g gs ih => rw [invalidateAll_cons, ih]; cases g <;> simp

@[simp] theorem invalidateAll_vSi : (s.invalidateAll gs).vSi = (s.vSi && decide (Group.si ∉ gs)) := by
  induction gs generalizing s with
  | nil => simp
  | cons g gs ih => rw [invalidateAll_cons, ih]; cases g <;> simp

/-- A group that is no target keeps its registers (60_exceptions.md R184). -/
theorem invalidateAll_value (h : Group.value ∉ gs) : (s.invalidateAll gs).value = s.value := by
  induction gs generalizing s with
  | nil => rfl
  | cons g gs ih =>
    rw [invalidateAll_cons, ih _ (fun m => h (.tail _ m)), invalidate_value]
    rintro rfl; exact h (.head _)

theorem invalidateAll_bh (h : Group.bh ∉ gs) : (s.invalidateAll gs).bh = s.bh := by
  induction gs generalizing s with
  | nil => rfl
  | cons g gs ih =>
    rw [invalidateAll_cons, ih _ (fun m => h (.tail _ m)), invalidate_bh]
    rintro rfl; exact h (.head _)

theorem invalidateAll_si (h : Group.si ∉ gs) : (s.invalidateAll gs).si = s.si := by
  induction gs generalizing s with
  | nil => rfl
  | cons g gs ih =>
    rw [invalidateAll_cons, ih _ (fun m => h (.tail _ m)), invalidate_si]
    rintro rfl; exact h (.head _)

@[simp] theorem raise_params : (s.raise gs e).params = s.params := by cases e <;> simp
@[simp] theorem raise_cur : (s.raise gs e).cur = s.cur := by cases e <;> simp
@[simp] theorem raise_bufLen : (s.raise gs e).bufLen = s.bufLen := by cases e <;> simp
@[simp] theorem raise_buf : (s.raise gs e).buf = s.buf := by cases e <;> simp
@[simp] theorem raise_pending : (s.raise gs e).pending = s.pending := by cases e <;> simp
@[simp] theorem raise_hostData : (s.raise gs e).hostData = s.hostData := by cases e <;> simp
@[simp] theorem raise_epoch : (s.raise gs e).epoch = s.epoch := by cases e <;> simp
@[simp] theorem raise_vValue : (s.raise gs e).vValue = (s.vValue && decide (Group.value ∉ gs)) := by cases e <;> simp
@[simp] theorem raise_vBh : (s.raise gs e).vBh = (s.vBh && decide (Group.bh ∉ gs)) := by cases e <;> simp
@[simp] theorem raise_vSi : (s.raise gs e).vSi = (s.vSi && decide (Group.si ∉ gs)) := by cases e <;> simp

theorem raise_value (h : Group.value ∉ gs) : (s.raise gs e).value = s.value := by
  cases e <;> simp [invalidateAll_value _ _ h]
theorem raise_bh (h : Group.bh ∉ gs) : (s.raise gs e).bh = s.bh := by cases e <;> simp [invalidateAll_bh _ _ h]
theorem raise_si (h : Group.si ∉ gs) : (s.raise gs e).si = s.si := by cases e <;> simp [invalidateAll_si _ _ h]

/-! ### BADCMD entry -/

@[simp] theorem badCommand_eq : s.badCommand = { s with kind := .badcmd, needed := 0 } := rfl

end Sys2Proof.Machine
end

