-- ==== Sys2Proof/Laws/Commands.lean ====
section
/-! SUPPORT. The decoders as sequences of primitive reads, and the ways a command can end. -/

namespace Sys2Proof.Machine

/-! ### From the machine's reads to the spec's fields -/

theorem bitAt_eq_streamBit (s : State) (c : Cursor) (k : Nat) : s.bitAt c k = streamBit s (c.addr + k) := by
  simp only [State.bitAt, streamBit, Cursor.addr]
  congr 3 <;> omega

/-- The number the machine reads is the field of 20_memory.md R44. -/
theorem bitsAt_eq_field (s : State) (c : Cursor) (n : Nat) : s.bitsAt c n = field s c.addr n := by
  induction n with
  | zero => simp [State.bitsAt, field]
  | succ n ih =>
    rw [State.bitsAt, ih, bitAt_eq_streamBit, field, field, Finset.sum_range_succ, Finset.mul_sum]
    congr 1
    · refine Finset.sum_congr rfl fun k hk => ?_
      have hk := Finset.mem_range.mp hk
      rw [show n + 1 - 1 - k = n - 1 - k + 1 by omega, Nat.pow_succ]
      ring
    · simp

/-! ### The decoders -/

theorem headerPieces_sum (t : PieceTable) : (headerPieces t).sum = 32 := by
  simp [headerPieces, split_sum]

theorem headerPieces_bounds (t : PieceTable) : ∀ w ∈ headerPieces t, 1 ≤ w ∧ w ≤ 64 := by
  simp only [headerPieces, List.forall_mem_append]
  exact ⟨by decide, split_bounds _⟩

theorem infoPieces_sum (t : PieceTable) : (infoPieces t).sum = 272 := by
  simp [infoPieces, split_sum]

theorem infoPieces_bounds (t : PieceTable) : ∀ w ∈ infoPieces t, 1 ≤ w ∧ w ≤ 64 := by
  simp only [infoPieces, List.forall_mem_append]
  refine ⟨⟨⟨⟨⟨⟨⟨⟨?_, ?_⟩, ?_⟩, ?_⟩, ?_⟩, by decide⟩, by decide⟩, ?_⟩, ?_⟩ <;> exact split_bounds _

/-- Everything `DecodeBlockHeader` can do (42_block_header.md R120). -/
theorem readsAs_decodeBlockHeader (s : State) (c : Cursor) (h : s.cursorWf c) :
    ReadsAs s c (headerPieces s.params.pieces) (decodeBlockHeader s c)
      ⟨s.bitsAt c 1 != 0, blockTypeOf (s.bitsAt (c.advance 1) 7), s.bitsAt (c.advance 8) 24⟩ := by
  refine (readsAs_take s c 1 h).bind (vs := 7 :: s.params.pieces.read24.widths) h fun h1 => ?_
  refine (readsAs_take s _ 7 h1).bind (vs := s.params.pieces.read24.widths) h1 fun h2 => ?_
  rw [← List.append_nil s.params.pieces.read24.widths]
  refine (readsAs_takeComposite s .read24 _ h2).bind_of_sum (vs := []) (pieces_sum .read24 _) h2 fun h3 => ?_
  simpa [Composite.total] using ReadsAs.pure s _ _ h3

/-- Everything `DecodeStreamInfo` can do (43_stream_info.md R130). -/
theorem readsAs_decodeStreamInfo (s : State) (c : Cursor) (h : s.cursorWf c) :
    ReadsAs s c (infoPieces s.params.pieces) (decodeStreamInfo s c)
      ⟨BitVec.ofNat 16 (s.bitsAt c 16), BitVec.ofNat 16 (s.bitsAt (c.advance 16) 16),
        BitVec.ofNat 24 (s.bitsAt (c.advance 32) 24), BitVec.ofNat 24 (s.bitsAt (c.advance 56) 24),
        BitVec.ofNat 20 (s.bitsAt (c.advance 80) 20), biasedChannels (s.bitsAt (c.advance 100) 3),
        biasedDepth (s.bitsAt (c.advance 103) 5), BitVec.ofNat 36 (s.bitsAt (c.advance 108) 36)⟩ := by
  simp only [infoPieces, List.append_assoc]
  refine (readsAs_takeComposite s .read16 c h).bind_of_sum (pieces_sum .read16 _) h fun h1 => ?_
  refine (readsAs_takeComposite s .read16 _ h1).bind_of_sum (pieces_sum .read16 _) h1 fun h2 => ?_
  refine (readsAs_takeComposite s .read24 _ h2).bind_of_sum (pieces_sum .read24 _) h2 fun h3 => ?_
  refine (readsAs_takeComposite s .read24 _ h3).bind_of_sum (pieces_sum .read24 _) h3 fun h4 => ?_
  refine (readsAs_takeComposite s .read20 _ h4).bind_of_sum (pieces_sum .read20 _) h4 fun h5 => ?_
  refine (readsAs_take s _ 3 h5).bind h5 fun h6 => ?_
  refine (readsAs_take s _ 5 h6).bind h6 fun h7 => ?_
  refine (readsAs_takeComposite s .read36 _ h7).bind_of_sum (pieces_sum .read36 _) h7 fun h8 => ?_
  have := (readsAs_skipSeq s (Composite.skip128.pieces s.params.pieces) _ h8).bind (vs := []) h8
    (f := fun x => Pure.pure (x.1, (⟨BitVec.ofNat 16 (s.bitsAt c 16), BitVec.ofNat 16 (s.bitsAt (c.advance 16) 16),
        BitVec.ofNat 24 (s.bitsAt (c.advance 32) 24), BitVec.ofNat 24 (s.bitsAt (c.advance 56) 24),
        BitVec.ofNat 20 (s.bitsAt (c.advance 80) 20), biasedChannels (s.bitsAt (c.advance 100) 3),
        biasedDepth (s.bitsAt (c.advance 103) 5), BitVec.ofNat 36 (s.bitsAt (c.advance 108) 36)⟩ : StreamInfo)))
    fun h9 => ReadsAs.pure s _ _ h9
  rw [bind_assoc] at this
  simpa [State.skip128, Composite.pieces, Composite.total] using this

/-- Everything `VerifyMagic` can do (44_stream_decoder.md R140, R142). -/
theorem verifyMagic_eq (s : State) (c : Cursor) (h : s.cursorWf c) :
    verifyMagic s c =
      if c.addr + 32 ≤ 8 * s.bufLen then
        if s.bitsAt c 32 = magicWord then .ok (c.advance 32) else .error .invalid
      else .error (.incomplete (shortfall [8, 8, 8, 8] (8 * s.bufLen - c.addr))) := by
  have hr : ReadsAs s c [8, 8, 8, 8] (do
      let (c, m0) ← s.take c 8
      let (c, m1) ← s.take c 8
      let (c, m2) ← s.take c 8
      let (c, m3) ← s.take c 8
      Pure.pure (c, (m0, m1, m2, m3)))
      (s.bitsAt c 8, s.bitsAt (c.advance 8) 8, s.bitsAt (c.advance 16) 8, s.bitsAt (c.advance 24) 8) := by
    refine (readsAs_take s c 8 h).bind (vs := [8, 8, 8]) h fun h1 => ?_
    refine (readsAs_take s _ 8 h1).bind (vs := [8, 8]) h1 fun h2 => ?_
    refine (readsAs_take s _ 8 h2).bind (vs := [8]) h2 fun h3 => ?_
    refine (readsAs_take s _ 8 h3).bind (vs := []) h3 fun h4 => ?_
    simpa using ReadsAs.pure s _ _ h4
  have hv : verifyMagic s c = (do
      let (c, m0) ← s.take c 8
      let (c, m1) ← s.take c 8
      let (c, m2) ← s.take c 8
      let (c, m3) ← s.take c 8
      Pure.pure (c, (m0, m1, m2, m3))) >>= fun x =>
        if x.2.1 = 0x66 ∧ x.2.2.1 = 0x4C ∧ x.2.2.2.1 = 0x61 ∧ x.2.2.2.2 = 0x43 then .ok x.1 else .error .invalid := by
    simp only [bind_assoc, pure_bind]
    rfl
  rw [hv]
  have hs : ([8, 8, 8, 8] : List Nat).sum = 32 := rfl
  by_cases hc : c.addr + 32 ≤ 8 * s.bufLen
  · rw [hr.ok (by rw [hs]; exact hc), if_pos hc, hs]
    have h1 : s.bitsAt c 32 = ((s.bitsAt c 8 * 2 ^ 8 + s.bitsAt (c.advance 8) 8) * 2 ^ 8
        + s.bitsAt (c.advance 16) 8) * 2 ^ 8 + s.bitsAt (c.advance 24) 8 := by
      rw [show (32 : Nat) = 24 + 8 from rfl, bitsAt_add, show (24 : Nat) = 16 + 8 from rfl, bitsAt_add,
        show (16 : Nat) = 8 + 8 from rfl, bitsAt_add]
    have b0 := bitsAt_lt s c 8
    have b1 := bitsAt_lt s (c.advance 8) 8
    have b2 := bitsAt_lt s (c.advance 16) 8
    have b3 := bitsAt_lt s (c.advance 24) 8
    simp only [Except.bind, bind]
    refine if_congr ?_ rfl rfl
    rw [h1, magicWord]
    omega
  · rw [hr.short (by rw [hs]; omega), if_neg hc]
    rfl

/-! ### The end of a command -/

/-- Everything one command can do: it commits, it enters failure, or it is refused at an ill-formed cursor. -/
theorem runCommand_next {gs : List Group} {body : State → Cursor → Except Raise (Cursor × Results)} {s t : State}
    (h : runCommand gs body s = .next t) :
    s.cursorWf s.cur ∧
      ((∃ c r, body s s.cur = .ok (c, r) ∧ t = s.commit c r) ∨ (∃ e, body s s.cur = .error e ∧ t = s.raise gs e)) := by
  unfold runCommand at h
  split at h
  · refine ⟨‹_›, ?_⟩
    split at h
    · exact .inl ⟨_, _, ‹_›, (Host.Outcome.next.inj h).symm⟩
    · exact .inr ⟨_, ‹_›, (Host.Outcome.next.inj h).symm⟩
  · cases h

/-- A command whose body succeeds commits. -/
theorem runCommand_ok {gs : List Group} {body : State → Cursor → Except Raise (Cursor × Results)} {s : State}
    {c : Cursor} {r : Results} (hw : s.cursorWf s.cur) (h : body s s.cur = .ok (c, r)) :
    runCommand gs body s = .next (s.commit c r) := by
  unfold runCommand
  rw [if_pos hw, h]

/-- A command whose body raises enters failure. -/
theorem runCommand_error {gs : List Group} {body : State → Cursor → Except Raise (Cursor × Results)} {s : State}
    {e : Raise} (hw : s.cursorWf s.cur) (h : body s s.cur = .error e) :
    runCommand gs body s = .next (s.raise gs e) := by
  unfold runCommand
  rw [if_pos hw, h]

/-! ### Bounds of fields -/

theorem field_lt (s : State) (c : Cursor) (n : Nat) : field s c.addr n < 2 ^ n := by
  rw [← bitsAt_eq_field]; exact bitsAt_lt s c n

theorem code_blockTypeOf : ∀ t < 128, (blockTypeOf t).code = BitVec.ofNat 4 (typeCode t) := by decide

/-- The registers of a decoded header are the header of 30_encoding.md R71 at the same place. -/
theorem registers_eq_headerAt (s : State) (c : Cursor) :
    DecodedHeader.registers ⟨s.bitsAt c 1 != 0, blockTypeOf (s.bitsAt (c.advance 1) 7), s.bitsAt (c.advance 8) 24⟩
      = headerAt s c.addr := by
  have h1 := bitsAt_lt s c 1
  have h7 := bitsAt_lt s (c.advance 1) 7
  simp only [DecodedHeader.registers, headerAt, bitsAt_eq_field, Cursor.addr_advance] at *
  congr 1
  case e_blockType => exact code_blockTypeOf _ h7
  have : field s c.addr 1 = 0 ∨ field s c.addr 1 = 1 := by omega
  rcases this with h | h <;> rw [h] <;> rfl

/-! ### The bodies of the commands -/

theorem readsAs_rdbitsBody (s : State) (n : Nat) (c : Cursor) (h : s.cursorWf c) :
    ReadsAs s c [n] (rdbitsBody n s c) (valueResult (field s c.addr n)) := by
  refine (readsAs_take s c n h).bind (vs := []) h fun h1 => ?_
  rw [bitsAt_eq_field]
  exact ReadsAs.pure s _ _ h1

theorem readsAs_compositeBody (s : State) (k : Composite) (c : Cursor) (h : s.cursorWf c) :
    ReadsAs s c (k.pieces s.params.pieces) (compositeBody k s c) (valueResult (field s c.addr k.total)) := by
  have := (readsAs_takeComposite s k c h).bind (vs := []) (f := fun x => Pure.pure (x.1, valueResult x.2)) h
    fun h1 => ReadsAs.pure s _ _ h1
  rw [List.append_nil, bitsAt_eq_field] at this
  exact this

theorem readsAs_skip128Body (s : State) (c : Cursor) (h : s.cursorWf c) :
    ReadsAs s c (Composite.skip128.pieces s.params.pieces) (skip128Body s c) {} := by
  have := (readsAs_skipSeq s (Composite.skip128.pieces s.params.pieces) c h).bind (vs := [])
    (f := fun x => Pure.pure (x.1, ({} : Results))) h fun h1 => ReadsAs.pure s _ _ h1
  rw [bind_assoc, List.append_nil] at this
  simpa [skip128Body, State.skip128] using this

theorem readsAs_blkhdrBody (s : State) (c : Cursor) (h : s.cursorWf c) :
    ReadsAs s c (headerPieces s.params.pieces) (blkhdrBody s c) { bh := some (headerAt s c.addr) } := by
  rw [← List.append_nil (headerPieces _)]
  refine (readsAs_decodeBlockHeader s c h).bind (vs := []) h fun h1 => ?_
  rw [← registers_eq_headerAt]
  exact ReadsAs.pure s _ _ h1

theorem readsAs_info (s : State) (c : Cursor) (h : s.cursorWf c) :
    ReadsAs s c (infoPieces s.params.pieces) (decodeStreamInfo s c) (infoAt s c.addr) := by
  simpa [infoAt, biasedChannels, biasedDepth, bitsAt_eq_field] using readsAs_decodeStreamInfo s c h

theorem readsAs_strinfoBody (s : State) (c : Cursor) (h : s.cursorWf c) :
    ReadsAs s c (infoPieces s.params.pieces) (strinfoBody s c) { si := some (infoAt s c.addr) } := by
  have := (readsAs_info s c h).bind (vs := []) (f := fun x => Pure.pure (x.1, ({ si := some x.2 } : Results))) h
    fun h1 => ReadsAs.pure s _ _ h1
  rw [List.append_nil] at this
  exact this

theorem magicBody_eq (s : State) (c : Cursor) (h : s.cursorWf c) :
    magicBody s c =
      if c.addr + 32 ≤ 8 * s.bufLen then
        if field s c.addr 32 = magicWord then .ok (c.advance 32, {}) else .error .invalid
      else .error (.incomplete (shortfall [8, 8, 8, 8] (8 * s.bufLen - c.addr))) := by
  rw [magicBody, verifyMagic_eq s c h, bitsAt_eq_field]
  split
  · split <;> rfl
  · rfl

theorem blockTypeOf_streamInfo : ∀ t < 128, (blockTypeOf t = .streamInfo ↔ t = 0) := by decide

/-- The header check as a condition on the stream (44_stream_decoder.md R146). -/
theorem headerRejected_iff (s : State) (c : Cursor) (last : Bool) :
    headerRejected s.params ⟨last, blockTypeOf (s.bitsAt c 7), s.bitsAt (c.advance 7) 24⟩ = true ↔
      ¬ (s.params.strictHdr = true → field s c.addr 7 = 0 ∧ field s (c.addr + 7) 24 = 34) := by
  have htag := blockTypeOf_streamInfo _ (bitsAt_lt s c 7)
  simp only [headerRejected, Bool.and_eq_true, Bool.not_eq_true', Bool.and_eq_false_iff, decide_eq_false_iff_not,
    htag]
  rw [bitsAt_eq_field, bitsAt_eq_field, Cursor.addr_advance]
  by_cases hs : s.params.strictHdr = true
  · simp only [hs, true_and, forall_const]
    omega
  · simp [hs]

/-- The pieces of STREAM behind the magic (44_stream_decoder.md R150). -/
theorem streamBody_eq (s : State) (c : Cursor) (h : s.cursorWf c) :
    streamBody s c =
      if c.addr + 32 ≤ 8 * s.bufLen then
        if field s c.addr 32 = magicWord then
          if c.addr + 64 ≤ 8 * s.bufLen then
            if s.params.strictHdr = true → field s (c.addr + 33) 7 = 0 ∧ field s (c.addr + 40) 24 = 34 then
              if c.addr + 336 ≤ 8 * s.bufLen then
                .ok (c.advance 336, { bh := some (headerAt s (c.addr + 32)), si := some (infoAt s (c.addr + 64)) })
              else .error (.incomplete (shortfall (infoPieces s.params.pieces) (8 * s.bufLen - (c.addr + 64))))
            else .error .invalid
          else .error (.incomplete (shortfall (headerPieces s.params.pieces) (8 * s.bufLen - (c.addr + 32))))
        else .error .invalid
      else .error (.incomplete (shortfall [8, 8, 8, 8] (8 * s.bufLen - c.addr))) := by
  rw [streamBody, verifyMagic_eq s c h, bitsAt_eq_field]
  split
  case isFalse => rfl
  split
  case isFalse => rfl
  rename_i h32 _
  have hw : s.cursorWf (c.advance 32) := by rw [cursorWf_iff, Cursor.addr_advance]; exact h32
  have hd := readsAs_decodeBlockHeader s (c.advance 32) hw
  have hs := headerPieces_sum s.params.pieces
  by_cases h64 : c.addr + 64 ≤ 8 * s.bufLen
  case neg =>
    rw [if_neg h64]
    have := hd.short (by rw [hs, Cursor.addr_advance]; omega)
    rw [Cursor.addr_advance] at this
    simp only [bind, Except.bind, this]
  rw [if_pos h64]
  have := hd.ok (by rw [hs, Cursor.addr_advance]; omega)
  rw [hs, Cursor.advance_advance] at this
  simp only [bind, Except.bind, this]
  have hw2 : s.cursorWf (c.advance 64) := by rw [cursorWf_iff, Cursor.addr_advance]; exact h64
  have hi := readsAs_info s (c.advance 64) hw2
  have hsi := infoPieces_sum s.params.pieces
  have hrej := headerRejected_iff s (c.advance 33) (s.bitsAt (c.advance 32) 1 != 0)
  simp only [Cursor.advance_advance, Cursor.addr_advance, Nat.reduceAdd, Nat.add_assoc] at hrej ⊢
  by_cases ha : s.params.strictHdr = true → field s (c.addr + 33) 7 = 0 ∧ field s (c.addr + 40) 24 = 34
  case neg =>
    rw [if_neg ha, if_pos (hrej.mpr ha)]
    rfl
  rw [if_pos ha, if_neg (fun h => hrej.mp h ha)]
  by_cases hall : c.addr + 336 ≤ 8 * s.bufLen
  case neg =>
    rw [if_neg hall]
    have := hi.short (by rw [hsi, Cursor.addr_advance]; omega)
    rw [Cursor.addr_advance] at this
    simp only [this]
  rw [if_pos hall]
  have := hi.ok (by rw [hsi, Cursor.addr_advance]; omega)
  rw [hsi, Cursor.advance_advance, Cursor.addr_advance] at this
  have hreg := registers_eq_headerAt s (c.advance 32)
  simp only [Cursor.advance_advance, Nat.reduceAdd, Cursor.addr_advance] at hreg
  simp only [this, Pure.pure, Except.pure, hreg]

/-! ### Commands whose body is a read -/

/-- A command whose body reads `ws` and delivers `r`: with all bits there it commits. -/
theorem runCommand_readsAs_ok {gs : List Group} {body : State → Cursor → Except Raise (Cursor × Results)} {s : State}
    {ws : List Nat} {r : Results} (hw : s.cursorWf s.cur) (h : ReadsAs s s.cur ws (body s s.cur) r)
    (hb : s.cur.addr + ws.sum ≤ 8 * s.bufLen) :
    runCommand gs body s = .next (s.commit (s.cur.advance ws.sum) r) := runCommand_ok hw (h.ok hb)

/-- With too few bits there it enters failure with the count of the first short piece. -/
theorem runCommand_readsAs_short {gs : List Group} {body : State → Cursor → Except Raise (Cursor × Results)}
    {s : State} {ws : List Nat} {r : Results} (hw : s.cursorWf s.cur) (h : ReadsAs s s.cur ws (body s s.cur) r)
    (hb : 8 * s.bufLen < s.cur.addr + ws.sum) :
    runCommand gs body s = .next (s.raise gs (.incomplete (shortfall ws (8 * s.bufLen - s.cur.addr)))) :=
  runCommand_error hw (h.short hb)

/-! ### What a command does, said once -/

/-- What a command delivers when it succeeds. -/
def delivered (s : State) : Instr → Results
  | .rdbits n => valueResult (field s s.cur.addr n)
  | .rd16 => valueResult (field s s.cur.addr 16)
  | .rd20 => valueResult (field s s.cur.addr 20)
  | .rd24 => valueResult (field s s.cur.addr 24)
  | .rd36 => valueResult (field s s.cur.addr 36)
  | .skip128 | .magic => {}
  | .blkhdr => { bh := some (headerAt s s.cur.addr) }
  | .strinfo => { si := some (infoAt s s.cur.addr) }
  | .stream => { bh := some (headerAt s (s.cur.addr + 32)), si := some (infoAt s (s.cur.addr + 64)) }

/-- The content checks of a command pass: the magic for MAGIC and STREAM, the header for STREAM. -/
def ContentAccepted (s : State) : Instr → Prop
  | .magic => field s s.cur.addr 32 = magicWord
  | .stream => field s s.cur.addr 32 = magicWord ∧ HeaderAccepted s
  | _ => True

theorem shortfall_bounds (ws : List Nat) (R : Nat) (hw : ∀ w ∈ ws, 1 ≤ w ∧ w ≤ 64) (h : R < ws.sum) :
    1 ≤ shortfall ws R ∧ shortfall ws R ≤ 64 := by
  induction ws generalizing R with
  | nil => simp at h
  | cons w ws ih =>
    have h64 := (hw w (.head _)).2
    simp only [shortfall]
    split
    · omega
    · simp only [List.sum_cons] at h
      exact ih _ (fun x hx => hw x (.tail _ hx)) (by omega)

/-- The count of the first short piece, read from the prefix sums (41_field_combinators.md R107). -/
theorem neededBy_eq_shortfall (ws : List Nat) (R : Nat) (h : R < ws.sum) :
    neededBy ws R = shortfall ws R := by
  unfold neededBy
  have step : ∀ (w R : Nat) (l : List Nat), w ≤ R → neededFrom (l.map (w + ·)) R = neededFrom l (R - w) := by
    intro w R l hw
    have hp : ((fun P => decide (R < P)) ∘ (w + ·)) = fun P => decide (R - w < P) := by
      funext P
      simp only [Function.comp_apply, decide_eq_decide]
      omega
    unfold neededFrom
    rw [List.find?_map, hp]
    cases l.find? fun P => decide (R - w < P) with
    | none => rfl
    | some P => simp only [Option.map_some]; omega
  induction ws generalizing R with
  | nil => simp at h
  | cons w ws ih =>
    simp only [prefixSums, shortfall]
    split
    · rename_i hw; simp [neededFrom, hw]
    · rename_i hw
      rw [List.sum_cons] at h
      rw [← ih _ (by omega), ← step w R _ (by omega)]
      simp [neededFrom, hw]

/-- How a command ends, for each of the three ways it can. -/
inductive Ends (i : Instr) (s : State) : State → Prop where
  | ok (hb : s.cur.addr + bitsConsumed i ≤ 8 * s.bufLen) (hc : ContentAccepted s i) :
      Ends i s (s.commit (s.cur.advance (bitsConsumed i)) (delivered s i))
  | short (k : Nat) (h1 : 1 ≤ k) (h2 : k ≤ 64) (hb : 8 * s.bufLen < s.cur.addr + bitsConsumed i) :
      Ends i s (s.raise (targetGroups i) (.incomplete k))
  | invalid (hi : i = .magic ∨ i = .stream) (hc : ¬ ContentAccepted s i) :
      Ends i s (s.raise (targetGroups i) .invalid)

/-- A command whose body is a read of pieces ends in one of these ways. -/
theorem ends_of_reads {i : Instr} {s t : State} {ws : List Nat}
    {body : State → Cursor → Except Raise (Cursor × Results)} (hw : ∀ w ∈ ws, 1 ≤ w ∧ w ≤ 64)
    (hs : ws.sum = bitsConsumed i) (hc : ContentAccepted s i)
    (hr : s.cursorWf s.cur → ReadsAs s s.cur ws (body s s.cur) (delivered s i))
    (h : runCommand (targetGroups i) body s = .next t) : Ends i s t := by
  have hwf := (runCommand_next h).1
  by_cases hb : s.cur.addr + ws.sum ≤ 8 * s.bufLen
  · rw [runCommand_readsAs_ok hwf (hr hwf) hb] at h
    cases h
    rw [hs] at hb ⊢
    exact .ok hb hc
  · rw [runCommand_readsAs_short hwf (hr hwf) (by omega)] at h
    cases h
    have hwf' := (cursorWf_iff s s.cur).mp hwf
    have := shortfall_bounds ws (8 * s.bufLen - s.cur.addr) hw (by omega)
    exact .short _ this.1 this.2 (by omega)

/-- A command whose body raises Incomplete over some pieces ends short. -/
theorem ends_short {i : Instr} {s t : State} {R : Nat} (ws : List Nat)
    {body : State → Cursor → Except Raise (Cursor × Results)} (hwf : s.cursorWf s.cur)
    (hb : body s s.cur = .error (.incomplete (shortfall ws R))) (hws : ∀ w ∈ ws, 1 ≤ w ∧ w ≤ 64) (hR : R < ws.sum)
    (hlen : 8 * s.bufLen < s.cur.addr + bitsConsumed i) (h : runCommand (targetGroups i) body s = .next t) :
    Ends i s t := by
  rw [runCommand_error hwf hb] at h
  cases h
  have hk := shortfall_bounds ws R hws hR
  exact .short _ hk.1 hk.2 hlen

theorem magic_ends {s t : State} (hw : s.cursorWf s.cur) (h : exec .magic s = .next t) : Ends .magic s t := by
  have hb := magicBody_eq s s.cur hw
  have hw' := (cursorWf_iff s s.cur).mp hw
  by_cases h32 : s.cur.addr + 32 ≤ 8 * s.bufLen
  case neg =>
    rw [if_neg h32] at hb
    exact ends_short [8, 8, 8, 8] hw hb (by decide) (by simp only [List.sum_cons, List.sum_nil]; omega)
      (by simp only [bitsConsumed]; omega) h
  rw [if_pos h32] at hb
  by_cases hm : field s s.cur.addr 32 = magicWord
  case neg =>
    rw [if_neg hm] at hb
    have := (runCommand_error (gs := targetGroups .magic) hw hb).symm.trans h
    cases this
    exact .invalid (.inl rfl) hm
  rw [if_pos hm] at hb
  have := (runCommand_ok (gs := targetGroups .magic) hw hb).symm.trans h
  cases this
  exact .ok (i := .magic) h32 hm

theorem stream_ends {s t : State} (hw : s.cursorWf s.cur) (h : exec .stream s = .next t) : Ends .stream s t := by
  have hb := streamBody_eq s s.cur hw
  have hw' := (cursorWf_iff s s.cur).mp hw
  by_cases h32 : s.cur.addr + 32 ≤ 8 * s.bufLen
  case neg =>
    rw [if_neg h32] at hb
    exact ends_short [8, 8, 8, 8] hw hb (by decide) (by simp only [List.sum_cons, List.sum_nil]; omega)
      (by simp only [bitsConsumed]; omega) h
  rw [if_pos h32] at hb
  by_cases hm : field s s.cur.addr 32 = magicWord
  case neg =>
    rw [if_neg hm] at hb
    have := (runCommand_error (gs := targetGroups .stream) hw hb).symm.trans h
    cases this
    exact .invalid (.inr rfl) (fun hc => hm hc.1)
  rw [if_pos hm] at hb
  by_cases h64 : s.cur.addr + 64 ≤ 8 * s.bufLen
  case neg =>
    rw [if_neg h64] at hb
    exact ends_short _ hw hb (headerPieces_bounds _) (by rw [headerPieces_sum]; omega)
      (by simp only [bitsConsumed]; omega) h
  rw [if_pos h64] at hb
  by_cases ha : s.params.strictHdr = true → field s (s.cur.addr + 33) 7 = 0 ∧ field s (s.cur.addr + 40) 24 = 34
  case neg =>
    rw [if_neg ha] at hb
    have := (runCommand_error (gs := targetGroups .stream) hw hb).symm.trans h
    cases this
    exact .invalid (.inr rfl) (fun hc => ha hc.2)
  rw [if_pos ha] at hb
  by_cases h336 : s.cur.addr + 336 ≤ 8 * s.bufLen
  case neg =>
    rw [if_neg h336] at hb
    exact ends_short _ hw hb (infoPieces_bounds _) (by rw [infoPieces_sum]; omega)
      (by simp only [bitsConsumed]; omega) h
  rw [if_pos h336] at hb
  have := (runCommand_ok (gs := targetGroups .stream) hw hb).symm.trans h
  cases this
  exact .ok (i := .stream) h336 ⟨hm, ha⟩

/-- Everything a command can do when it answers a next state. -/
theorem exec_next {i : Instr} {s t : State} (h : exec i s = .next t) :
    i.wellFormed = true ∧ s.cursorWf s.cur ∧ Ends i s t := by
  cases i with
  | rdbits n =>
    simp only [exec, execRdbits] at h
    split at h
    case isFalse => cases h
    rename_i hn
    refine ⟨by simp [Instr.wellFormed, hn], (runCommand_next h).1, ?_⟩
    exact ends_of_reads (ws := [n]) (by simp [hn]) (by simp [bitsConsumed]) trivial
      (fun hw => readsAs_rdbitsBody s n _ hw) h
  | rd16 => exact ⟨rfl, (runCommand_next h).1, ends_of_reads (pieces_bounds _ _) (pieces_sum _ _) trivial
      (fun hw => readsAs_compositeBody s .read16 _ hw) h⟩
  | rd20 => exact ⟨rfl, (runCommand_next h).1, ends_of_reads (pieces_bounds _ _) (pieces_sum _ _) trivial
      (fun hw => readsAs_compositeBody s .read20 _ hw) h⟩
  | rd24 => exact ⟨rfl, (runCommand_next h).1, ends_of_reads (pieces_bounds _ _) (pieces_sum _ _) trivial
      (fun hw => readsAs_compositeBody s .read24 _ hw) h⟩
  | rd36 => exact ⟨rfl, (runCommand_next h).1, ends_of_reads (pieces_bounds _ _) (pieces_sum _ _) trivial
      (fun hw => readsAs_compositeBody s .read36 _ hw) h⟩
  | skip128 => exact ⟨rfl, (runCommand_next h).1, ends_of_reads (pieces_bounds _ _) (pieces_sum _ _) trivial
      (fun hw => readsAs_skip128Body s _ hw) h⟩
  | blkhdr => exact ⟨rfl, (runCommand_next h).1, ends_of_reads (headerPieces_bounds _) (headerPieces_sum _) trivial
      (fun hw => readsAs_blkhdrBody s _ hw) h⟩
  | strinfo => exact ⟨rfl, (runCommand_next h).1, ends_of_reads (infoPieces_bounds _) (infoPieces_sum _) trivial
      (fun hw => readsAs_strinfoBody s _ hw) h⟩
  | magic => exact ⟨rfl, (runCommand_next h).1, magic_ends (runCommand_next h).1 h⟩
  | stream => exact ⟨rfl, (runCommand_next h).1, stream_ends (runCommand_next h).1 h⟩

/-- A command completes at a well-formed cursor. -/
theorem exec_total {i : Instr} {s : State} (hi : i.wellFormed = true) (hw : s.cursorWf s.cur) :
    ∃ t, exec i s = .next t := by
  have run : ∀ gs body, ∃ t, runCommand gs body s = .next t := by
    intro gs body
    cases hb : body s s.cur with
    | ok x => exact ⟨_, runCommand_ok hw (c := x.1) (r := x.2) hb⟩
    | error e => exact ⟨_, runCommand_error hw hb⟩
  cases i with
  | rdbits n =>
    simp only [Instr.wellFormed, Bool.and_eq_true, decide_eq_true_eq] at hi
    simp only [exec, execRdbits, if_pos hi]
    exact run _ _
  | _ => exact run _ _

end Sys2Proof.Machine
end

