-- ==== Sys2Proof/Laws/Memory.lean ====
section
/-! SUPPORT. The buffer: a read after a write, and the canonical form. -/

namespace Sys2Proof.Machine

/-- The index just written holds the byte written. -/
theorem Memory.read_write_same (m : Memory) (i : Nat) (v : Byte) : Memory.read (Memory.write m i v) i = some v := by
  induction m with
  | nil => simp [Memory.write, Memory.read]
  | cons x m ih =>
    obtain ⟨a, b⟩ := x
    simp only [Memory.write]
    split
    · simp [Memory.read]
    · split <;> rename_i h
      · simp [Memory.read]
      · simp [Memory.read, h, ih]

/-- A write leaves every other index alone. -/
theorem Memory.read_write_other (m : Memory) (i j : Nat) (v : Byte) (h : j ≠ i) :
    Memory.read (Memory.write m i v) j = Memory.read m j := by
  induction m with
  | nil => simp [Memory.write, Memory.read, h.symm]
  | cons x m ih =>
    obtain ⟨a, b⟩ := x
    simp only [Memory.write]
    split
    · simp [Memory.read, h.symm]
    · split <;> rename_i h'
      · simp [Memory.read, h.symm, h']
      · simp [Memory.read, ih]

/-- The addresses after a write are the old ones and the one written. -/
theorem Memory.mem_write (m : Memory) (i a : Nat) (v : Byte) :
    a ∈ (Memory.write m i v).map Prod.fst → a = i ∨ a ∈ m.map Prod.fst := by
  induction m with
  | nil => simp [Memory.write]
  | cons x m ih =>
    obtain ⟨a', b⟩ := x
    simp only [Memory.write]
    split
    · simp only [List.map_cons, List.mem_cons]; tauto
    · split
      · simp only [List.map_cons, List.mem_cons]; tauto
      · simp only [List.map_cons, List.mem_cons] at ih ⊢; tauto

/-- A write keeps the canonical form. -/
theorem Memory.write_wf (m : Memory) (i : Nat) (v : Byte) (h : Memory.wf m) : Memory.wf (Memory.write m i v) := by
  induction m with
  | nil => simp [Memory.wf, Memory.write]
  | cons x m ih =>
    obtain ⟨a, b⟩ := x
    simp only [Memory.wf, List.map_cons, List.pairwise_cons] at h ih ⊢
    simp only [Memory.write]
    split <;> rename_i hlt
    · simp only [List.map_cons, List.pairwise_cons, List.mem_cons]
      refine ⟨?_, h.1, h.2⟩
      rintro a' (rfl | h')
      · exact hlt
      · exact hlt.trans (h.1 a' h')
    · split <;> rename_i hne
      · subst hne; simpa using h
      · simp only [List.map_cons, List.pairwise_cons]
        refine ⟨fun a' ha' => ?_, ih h.2⟩
        rcases Memory.mem_write m i a' v ha' with rfl | h'
        · omega
        · exact h.1 a' h'

/-- The empty buffer of reset is canonical. -/
theorem reset_buf_wf (p : Params) : Memory.wf (State.resetWith p).buf := List.Pairwise.nil

end Sys2Proof.Machine
end

