-- ==== Sys2Proof/Laws/HostAccess.lean ====
section
/-! SUPPORT. What one transaction of the host can do. -/

namespace Sys2Proof.Machine

/-- The byte at `j` after `HostBufWrite(i, v)`. -/
theorem memByte_write (s : State) (i j : Nat) (v : Byte) :
    State.memByte { s with buf := Memory.write s.buf i v } j = if j = i then v else s.memByte j := by
  simp only [State.memByte]
  split
  · rename_i h
    rw [h, Memory.read_write_same]
    rfl
  · rw [Memory.read_write_other _ _ _ _ ‹_›]

/-- The ways a `HostWrite` that executes no command ends. -/
theorem hostWrite_next {num : RegNum} {v : Nat} {s t : State} (h : hostWrite num v s = .next t) :
    (num.toNat = 0x00 ∧ v < 256 ∧ hostCmd (BitVec.ofNat 8 v) s = .next t) ∨
    (num.toNat = 0x03 ∧ v ≤ s.params.bufCap ∧ t = { s with cur := { s.cur with byte := v } }) ∨
    (num.toNat = 0x04 ∧ v ≤ 7 ∧ t = { s with cur := { s.cur with bit := BitVec.ofNat 3 v } }) ∨
    (num.toNat = 0x05 ∧ v ≤ s.params.bufCap ∧ t = { s with bufLen := v }) ∨ t = s := by
  unfold hostWrite at h
  split at h
  · split at h
    · exact .inl ⟨‹_›, ‹_›, h⟩
    · cases h
  · split at h <;> cases h
    exact .inr (.inl ⟨‹_›, ‹_›, rfl⟩)
  · split at h <;> cases h
    exact .inr (.inr (.inl ⟨‹_›, ‹_›, rfl⟩))
  · split at h <;> cases h
    exact .inr (.inr (.inr (.inl ⟨‹_›, ‹_›, rfl⟩)))
  · cases h
    exact .inr (.inr (.inr (.inr rfl)))

/-- A `HostRead` always completes and changes only what the host has read and the draw counter. -/
theorem hostRead_next (num : RegNum) (s : State) :
    ∃ d v, hostRead num s = .next { s with hostData := some v, draws := d } := by
  unfold hostRead
  split
  · exact ⟨s.draws, _, rfl⟩
  · exact ⟨_, _, rfl⟩

/-- A `HostBufWrite` inside the buffer writes it and nothing else. -/
theorem hostBufWrite_next {i : Nat} {v : Byte} {s t : State} (h : hostBufWrite i v s = .next t) :
    i < s.params.bufCap ∧ t = { s with buf := Memory.write s.buf i v } := by
  unfold hostBufWrite at h
  split at h
  · cases h
    exact ⟨‹_›, rfl⟩
  · cases h

/-! ### The reset event -/

@[simp] theorem resetEvent_params (s : State) : s.resetEvent.params = s.params := rfl
@[simp] theorem resetEvent_cur (s : State) : s.resetEvent.cur = ⟨0, 0⟩ := rfl
@[simp] theorem resetEvent_bufLen (s : State) : s.resetEvent.bufLen = 0 := rfl
@[simp] theorem resetEvent_buf (s : State) : s.resetEvent.buf = [] := rfl
@[simp] theorem resetEvent_kind (s : State) : s.resetEvent.kind = .ok := rfl
@[simp] theorem resetEvent_needed (s : State) : s.resetEvent.needed = 0 := rfl
@[simp] theorem resetEvent_vValue (s : State) : s.resetEvent.vValue = false := rfl
@[simp] theorem resetEvent_vBh (s : State) : s.resetEvent.vBh = false := rfl
@[simp] theorem resetEvent_vSi (s : State) : s.resetEvent.vSi = false := rfl
@[simp] theorem resetEvent_pending (s : State) : s.resetEvent.pending = s.pending := rfl
@[simp] theorem resetEvent_hostData (s : State) : s.resetEvent.hostData = s.hostData := rfl
@[simp] theorem resetEvent_epoch (s : State) : s.resetEvent.epoch = s.epoch + 1 := rfl

end Sys2Proof.Machine
end

