-- ==== Sys2Proof/Laws/PerInstr.lean ====
section
/-! SUPPORT. One family of facts about every command as syntax: its word selects its own row of the opcode map and no
other row (30_encoding.md R62). -/

namespace Sys2Proof.Laws

/-- The word of the command selects its own row of the opcode map and no other row. -/
def EncodingRow.Statement (i : Instr) : Prop :=
  i.wellFormed = true → (opcodeRow i).selects (encode i) = true ∧
    ∀ j : Instr, opcodeRow j ≠ opcodeRow i → (opcodeRow j).selects (encode i) = false

/-- A word selects no row but those of the ten commands, so checking the ten is enough. -/
theorem EncodingRow.of_ten {w : CommandWord} {r : OpcodeRow}
    (h : ∀ j ∈ [Instr.rdbits 1, .rd16, .rd20, .rd24, .rd36, .skip128, .magic, .blkhdr, .strinfo, .stream],
      opcodeRow j ≠ r → (opcodeRow j).selects w = false) (j : Instr) (hj : opcodeRow j ≠ r) :
    (opcodeRow j).selects w = false := by
  cases j <;> first | exact h _ (by decide) hj | exact h (.rdbits 1) (by decide) hj

/-- The 64 words of RDBITS. -/
theorem EncodingRow.rdbits_words : ∀ m < 64, (opcodeRow (.rdbits (m + 1))).selects (encode (.rdbits (m + 1))) = true ∧
    ∀ j ∈ [Instr.rdbits 1, .rd16, .rd20, .rd24, .rd36, .skip128, .magic, .blkhdr, .strinfo, .stream],
      opcodeRow j ≠ opcodeRow (.rdbits (m + 1)) → (opcodeRow j).selects (encode (.rdbits (m + 1))) = false := by
  decide

theorem EncodingRow.rdbits (n : Nat) : Statement (.rdbits n) := by
  intro h
  simp only [Instr.wellFormed, Bool.and_eq_true, decide_eq_true_eq] at h
  have hw := rdbits_words (n - 1) (by omega)
  rw [show n - 1 + 1 = n by omega] at hw
  exact ⟨hw.1, of_ten hw.2⟩

theorem EncodingRow.rd16 : Statement .rd16 := fun _ => ⟨by decide, of_ten (by decide)⟩

theorem EncodingRow.rd20 : Statement .rd20 := fun _ => ⟨by decide, of_ten (by decide)⟩

theorem EncodingRow.rd24 : Statement .rd24 := fun _ => ⟨by decide, of_ten (by decide)⟩

theorem EncodingRow.rd36 : Statement .rd36 := fun _ => ⟨by decide, of_ten (by decide)⟩

theorem EncodingRow.skip128 : Statement .skip128 := fun _ => ⟨by decide, of_ten (by decide)⟩

theorem EncodingRow.magic : Statement .magic := fun _ => ⟨by decide, of_ten (by decide)⟩

theorem EncodingRow.blkhdr : Statement .blkhdr := fun _ => ⟨by decide, of_ten (by decide)⟩

theorem EncodingRow.strinfo : Statement .strinfo := fun _ => ⟨by decide, of_ten (by decide)⟩

theorem EncodingRow.stream : Statement .stream := fun _ => ⟨by decide, of_ten (by decide)⟩

end Sys2Proof.Laws
end

