-- ==== Sys2Proof/Tests/Slice0.lean ====
section
/-! SUPPORT. Tests: expected values are the spec's own (95_test_vectors.md and the rules named), and for each claim with
hypotheses a concrete case that meets them. -/

namespace Sys2Proof.Tests

open Machine

/-! ### Ill-formed terms are refused -/

theorem test_width_0_ill_formed : (Instr.rdbits 0).wellFormed = false := by decide

theorem test_width_65_ill_formed : (Instr.rdbits 65).wellFormed = false := by decide

theorem test_width_1_and_64_well_formed : (Instr.rdbits 1).wellFormed && (Instr.rdbits 64).wellFormed = true := by decide

/-! ### Words written out from 30_encoding.md R62 and R63: grp in bits 7 and 6, arg in bits 5 to 0 -/

theorem test_decode_rdbits_3 : decode 0b00000010 = .ok (.rdbits 3) := by decide

theorem test_decode_rdbits_64 : decode 0b00111111 = .ok (.rdbits 64) := by decide

theorem test_decode_rd16 : decode 0b01000000 = .ok .rd16 := by decide

theorem test_decode_rd20 : decode 0b01000001 = .ok .rd20 := by decide

theorem test_decode_rd24 : decode 0b01000010 = .ok .rd24 := by decide

theorem test_decode_rd36 : decode 0b01000011 = .ok .rd36 := by decide

theorem test_decode_skip128 : decode 0b01000100 = .ok .skip128 := by decide

theorem test_decode_magic : decode 0b10000000 = .ok .magic := by decide

theorem test_decode_blkhdr : decode 0b10000001 = .ok .blkhdr := by decide

theorem test_decode_strinfo : decode 0b10000010 = .ok .strinfo := by decide

theorem test_decode_stream : decode 0b10000011 = .ok .stream := by decide

theorem test_decode_pseudo : decode 0x07 = .ok .rd8 ∧ decode 0x03 = .ok .rd4 := by decide

theorem test_decode_reserved : decode 0x45 = .error .combinatorSelector ∧ decode 0x7F = .error .combinatorSelector ∧
    decode 0x84 = .error .decoderSelector ∧ decode 0xBF = .error .decoderSelector ∧ decode 0xC0 = .error .group3 ∧
    decode 0xFF = .error .group3 := by decide

theorem test_table_word : decodeTableWord 8 0x83 = some .stream ∧ decodeTableWord 8 0xC0 = none := by decide

/-! ### A machine with bytes in its buffer -/

/-- The bytes listed from an index on. -/
def cells : Nat → List Byte → Memory
  | _, [] => []
  | i, b :: bs => (i, b) :: cells (i + 1) bs

/-- After reset, the macro `BUF <bytes>` and `SETCUR 0, bit` (30_encoding.md R66); a capacity of 64 bytes. -/
def load (bytes : List Byte) (bit : BitVec 3) : State :=
  { State.resetWith ⟨64, false, .tabulated⟩ with buf := cells 0 bytes, bufLen := bytes.length, cur := ⟨0, bit⟩ }

/-- The same with `STRICT_HDR = 1`. -/
def loadStrict (bytes : List Byte) (bit : BitVec 3) : State := { load bytes bit with params := ⟨64, true, .tabulated⟩ }

/-- The same with the 16-bit composite read as 4 and 12 bits. -/
def otherPieces (s : State) : State :=
  { s with params := { s.params with pieces := { PieceTable.tabulated with read16 := ⟨[4, 12], rfl⟩ } } }

/-- The outcome is a next state with the property `p`. -/
def ends (o : Host.Outcome State Fault Refusal) (p : State → Bool) : Bool :=
  match o with
  | .next t => p t
  | _ => false

theorem ends_next {o : Host.Outcome State Fault Refusal} {p : State → Bool} (h : ends o p = true) :
    ∃ t, o = .next t ∧ p t = true := by
  cases o with
  | next t => exact ⟨t, rfl, h⟩
  | fault => cases h
  | refused => cases h

/-- The command completed with the cursor at `(y, b)` and this STATUS. -/
def endsOk (t : State) (y : Nat) (b : BitVec 3) (status : BitVec 5) : Bool :=
  decide (t.kind = .ok ∧ t.needed = 0 ∧ t.cur = ⟨y, b⟩ ∧ t.status = status)

/-- The command ended `INC k` with the cursor still at `(0, b)` and this STATUS. -/
def endsInc (t : State) (k : BitVec 7) (b : BitVec 3) (status : BitVec 5) : Bool :=
  decide (t.kind = .incomplete ∧ t.needed = k ∧ t.cur = ⟨0, b⟩ ∧ t.status = status)

/-- The 42 bytes of 95_test_vectors.md E6. -/
def e6buf : List Byte :=
  [0x66, 0x4C, 0x61, 0x43, 0x80, 0x00, 0x00, 0x22, 0x00, 0x10, 0x24, 0x00, 0x00, 0x00, 0x21, 0x04] ++ [0x20, 0x00, 0x0B, 0xB8, 0x03, 0xF0, 0x00, 0x83, 0xD6, 0x00, 0x0B, 0x60, 0xDB, 0x9F, 0x4B, 0xA2] ++ [0xED, 0xB2, 0x90, 0x29, 0x59, 0xAC, 0xF0, 0x1F, 0x8F, 0x32]

/-- The 43 bytes of 95_test_vectors.md V-ST-16. -/
def st16buf : List Byte :=
  [0xAC, 0xC9, 0x8C, 0x28, 0x70, 0x00, 0x00, 0x04, 0x40, 0x02, 0x04, 0x80, 0x00, 0x00, 0x04, 0x20] ++ [0x84, 0x00, 0x01, 0x77, 0x00, 0x7E, 0x00, 0x10, 0x7A, 0xC0, 0x01, 0x6C, 0x1B, 0x73, 0xE9, 0x74] ++ [0x5D, 0xB6, 0x52, 0x05, 0x2B, 0x35, 0x9E, 0x03, 0xF1, 0xE6, 0x55]

/-- The 34 bytes of 95_test_vectors.md V-SI-6. -/
def si6buf : List Byte :=
  [0x00, 0x01, 0xFF, 0xFF, 0x00, 0x00, 0x00, 0xFF, 0xFF, 0xFF, 0x00, 0x00, 0x1F, 0x70, 0x00, 0x00] ++ [0x00, 0x01, 0x00, 0x00, 0x00, 0x00, 0x00, 0x00, 0x00, 0x00, 0x00, 0x00, 0x00, 0x00, 0xDE, 0xAD] ++ [0xBE, 0xEF]

/-- The stream info of 95_test_vectors.md E6. -/
def e6info : StreamInfo := ⟨16, 9216, 33, 270336, 48000, 2, 32, 8640000⟩

/-! ### Commands: the vectors of 95_test_vectors.md -/

/-- V-RB-8: the widest read, over nine bytes. -/
theorem test_rdbits_64_unaligned :
    ends (exec (.rdbits 64) (load [0x12, 0x34, 0x56, 0x78, 0x9A, 0xBC, 0xDE, 0xF0, 0x1F] 3))
      (fun t => endsOk t 8 3 0x04 && decide (t.value = 0x91A2B3C4D5E6F780)) = true := by decide +kernel

/-- V-RB-9. -/
theorem test_rdbits_64_short :
    ends (exec (.rdbits 64) (load [0x12, 0x34, 0x56, 0x78, 0x9A, 0xBC, 0xDE, 0xF0] 3))
      (fun t => endsInc t 3 3 0x01) = true := by decide

/-- V-FC-2. -/
theorem test_rd16_at_nibble :
    ends (exec .rd16 (load [0xA2, 0x40, 0x0F] 4)) (fun t => endsOk t 2 4 0x04 && decide (t.value = 0x2400)) = true := by
  decide

/-- V-FC-5: the count is the first piece's, not the total. -/
theorem test_rd16_empty : ends (exec .rd16 (load [] 0)) (fun t => endsInc t 8 0 0x01) = true := by decide

/-- With the 16 bits read as 4, 12 instead of 8, 8 the value stays, and the count follows the pieces (R106, R107). -/
theorem test_rd16_other_pieces :
    ends (exec .rd16 (otherPieces (load [0xA2, 0x40, 0x0F] 4)))
      (fun t => endsOk t 2 4 0x04 && decide (t.value = 0x2400)) = true ∧
    ends (exec .rd16 (otherPieces (load [0x24] 0))) (fun t => endsInc t 8 0 0x01) = true ∧
    ends (exec .rd16 (otherPieces (load [] 0))) (fun t => endsInc t 4 0 0x01) = true := by decide

/-- V-FC-6. -/
theorem test_rd20 :
    ends (exec .rd20 (load [0x0B, 0xB8, 0x03] 0)) (fun t => endsOk t 2 4 0x04 && decide (t.value = 48000)) = true := by
  decide

/-- V-FC-9. -/
theorem test_rd20_short : ends (exec .rd20 (load [0x0B, 0xB8, 0x03] 7)) (fun t => endsInc t 3 7 0x01) = true := by
  decide

/-- V-FC-10. -/
theorem test_rd24 :
    ends (exec .rd24 (load [0x04, 0x20, 0x00] 0)) (fun t => endsOk t 3 0 0x04 && decide (t.value = 270336)) = true := by
  decide

/-- V-FC-11. -/
theorem test_rd24_short : ends (exec .rd24 (load [0x04, 0x20] 4)) (fun t => endsInc t 4 4 0x01) = true := by decide

/-- V-FC-13. -/
theorem test_rd36 :
    ends (exec .rd36 (load [0xF0, 0x00, 0x83, 0xD6, 0x00] 4))
      (fun t => endsOk t 5 0 0x04 && decide (t.value = 8640000)) = true := by decide

/-- V-FC-18: the 4-bit piece comes first. -/
theorem test_rd36_short :
    ends (exec .rd36 (load [0xFF, 0xFF, 0xFF, 0xFF] 2)) (fun t => endsInc t 6 2 0x01) = true := by decide

/-- V-FC-22. -/
theorem test_skip128 :
    ends (exec .skip128 (load (List.replicate 17 0) 3)) (fun t => endsOk t 16 3 0x00) = true := by decide

/-- V-FC-21. -/
theorem test_skip128_short :
    ends (exec .skip128 (load (List.replicate 16 0) 3)) (fun t => endsInc t 3 3 0x01) = true := by decide

/-- V-MG-8: the magic at a nibble. -/
theorem test_magic_at_nibble :
    ends (exec .magic (load [0x06, 0x64, 0xC6, 0x14, 0x30] 4)) (fun t => endsOk t 4 4 0x00) = true := by decide

/-- V-MG-7: truncated and already wrong is Incomplete; with two more bytes it is Invalid, the cursor unmoved. -/
theorem test_magic_wrong :
    ends (exec .magic (load [0x00, 0x00] 0)) (fun t => endsInc t 8 0 0x01) = true ∧
    ends (exec .magic (load [0x00, 0x00, 0x61, 0x43] 0))
      (fun t => decide (t.kind = .invalid ∧ t.needed = 0 ∧ t.cur = ⟨0, 0⟩ ∧ t.status = 0x02)) = true := by decide

/-- V-BH-8. -/
theorem test_blkhdr :
    ends (exec .blkhdr (load [0xFF, 0x12, 0x34, 0x56] 0))
      (fun t => endsOk t 4 0 0x08 && decide (t.bh = ⟨1, 8, 0x123456⟩)) = true := by decide

/-- V-BH-12. -/
theorem test_blkhdr_short : ends (exec .blkhdr (load [0x80] 7)) (fun t => endsInc t 7 7 0x01) = true := by decide

/-- V-SI-6. -/
theorem test_strinfo :
    ends (exec .strinfo (load si6buf 0))
      (fun t => endsOk t 34 0 0x10 && decide (t.si = ⟨1, 65535, 0, 16777215, 1, 8, 24, 1⟩)) = true := by decide

/-- V-SI-7 with 13 bytes: the 5-bit depth field finds one bit. -/
theorem test_strinfo_short :
    ends (exec .strinfo (load (si6buf.take 13) 0)) (fun t => endsInc t 4 0 0x01) = true := by decide

/-- V-ST-16: E6 three bits later. -/
theorem test_stream_unaligned :
    ends (exec .stream (load st16buf 3))
      (fun t => endsOk t 42 3 0x18 && decide (t.bh = ⟨1, 0, 34⟩ ∧ t.si = e6info)) = true := by decide

/-- V-ST-9 and V-ST-10: a complete wrong header is Invalid at once under `STRICT_HDR = 1`, and not looked at under 0. -/
theorem test_stream_header_check :
    ends (exec .stream (loadStrict [0x66, 0x4C, 0x61, 0x43, 0x81, 0x00, 0x00, 0x22] 0))
      (fun t => decide (t.kind = .invalid ∧ t.needed = 0 ∧ t.cur = ⟨0, 0⟩ ∧ t.status = 0x02)) = true ∧
    ends (exec .stream (load [0x66, 0x4C, 0x61, 0x43, 0x81, 0x00, 0x00, 0x22] 0))
      (fun t => endsInc t 8 0 0x01) = true := by decide

/-! ### The host -/

/-- V-BC-2: flags and results stay. -/
theorem test_reserved_word :
    ends (hostCmd 0xC0 { load e6buf 0 with cur := ⟨42, 0⟩, vBh := true, vSi := true, si := e6info })
      (fun t => decide (t.status = 0x1B ∧ t.needed = 0 ∧ t.cur = ⟨42, 0⟩ ∧ t.si = e6info)) = true := by decide

/-- V-HA-3: a write to SI_RATE is ignored, and a read gives it. -/
theorem test_read_only_register :
    ends (hostWrite 0x0E 1 { load [] 0 with vSi := true, si := e6info }) (fun t => decide (t.si = e6info)) = true ∧
    ends (hostRead 0x0E { load [] 0 with vSi := true, si := e6info })
      (fun t => decide (t.hostData = some 48000)) = true := by decide

/-- V-HA-2: after reset VALUE has no value to read. -/
theorem test_value_unspecified_after_reset : State.reset.register 0x06 = none := by decide

/-- V-HA-6: an ill-formed cursor is refused. -/
theorem test_ill_formed_cursor :
    (match exec .magic { load [0x66, 0x4C] 0 with cur := ⟨2, 3⟩ } with
      | .refused .illFormedCursor => true
      | _ => false) = true := by decide

/-- A write keeps the order of addresses; a byte is what was last written (20_memory.md R50). -/
theorem test_buffer_write :
    ends (hostBufWrite 1 0x55 (load [0x01, 0x02, 0x03] 0))
      (fun t => decide (t.buf = [(0, 0x01), (1, 0x55), (2, 0x03)] ∧ t.bufLen = 3)) = true := by decide

/-- An index at BUF_CAP, here 64, is refused (93_implementation_defined.md U5, 45_host_access.md R169). -/
theorem test_buffer_write_outside :
    (match hostBufWrite 64 0x55 (load [] 0) with
      | .refused .bufIndexOutsideBuffer => true
      | _ => false) = true := by decide

/-- The step takes the oldest transaction and keeps the rest: `SETCUR 8, 0` (30_encoding.md R66). -/
theorem test_step_setcur :
    ends (step { load e6buf 0 with pending := (Line.setcur 8 0).transactions 42 })
      (fun t => decide (t.cur = ⟨8, 0⟩ ∧ t.pending = [.write 0x04 0])) = true := by decide

/-- The first command after reset is Incomplete (V-RB-14): no byte is there. -/
theorem test_first_command_after_reset :
    ends (step (State.reset.withFetchWord 8 0x00))
      (fun t => decide (t.kind = .incomplete ∧ t.needed = 1 ∧ t.pending = [])) = true := by decide

/-! ### Witnesses: for each claim with hypotheses, cases that meet them -/

/-- The bytes of V-RB-1. -/
def walk : State := load [0xA5, 0xC3, 0x7E] 0

theorem witness_wellFormed_widths : (Instr.rdbits 1).wellFormed = true ∧ (Instr.rdbits 64).wellFormed = true ∧
    Instr.stream.wellFormed = true := by decide

theorem witness_EncodeOfDecode : decode 0x3F = .ok (.rdbits 64) ∧ decode 0x44 = .ok .skip128 := by decide

theorem witness_ReservedWord : ∀ w ∈ [0x45, 0x7F, 0x84, 0xBF, 0xC0, 0xFF],
    (0x45 ≤ (w : CommandWord).toNat ∧ w.toNat ≤ 0x7F) ∨ 0x84 ≤ w.toNat := by decide

theorem witness_PrimitiveRead : walk.cursorWf ⟨0, 3⟩ ∧ walk.remaining ⟨0, 3⟩ = (21 : Nat) ∧ (21 : Nat) ≤ 21 ∧
    (21 : Nat) < 22 := by decide

theorem witness_ShortfallBounds : walk.cursorWf ⟨0, 3⟩ ∧ walk.take ⟨0, 3⟩ 22 = .error (.incomplete 1) ∧
    walk.bufLen + (1 + 7) / 8 ≤ 4 ∧ (22 : Int) ≤ State.remaining { walk with bufLen := 4 } ⟨0, 3⟩ := by decide

theorem witness_AdjacentReads : walk.take ⟨0, 0⟩ 3 = .ok (⟨0, 3⟩, 5) ∧ walk.take ⟨0, 3⟩ 5 = .ok (⟨1, 0⟩, 5) := by
  decide

theorem witness_SequenceReads : (∀ w ∈ [8, 8, 4], 1 ≤ w ∧ w ≤ 64) ∧ walk.cursorWf ⟨0, 4⟩ ∧
    (([8, 8, 4] : List Nat).sum : Int) ≤ walk.remaining ⟨0, 4⟩ := by decide

theorem witness_SequenceShort : (∀ w ∈ [8, 8, 4], 1 ≤ w ∧ w ≤ 64) ∧ walk.cursorWf ⟨0, 7⟩ ∧
    walk.remaining ⟨0, 7⟩ = (17 : Nat) ∧ 17 < ([8, 8, 4] : List Nat).sum := by decide

theorem witness_EnoughBytes : walk.cursorWf walk.cur ∧
    (walk.cur.bit.toNat + 24 + 7) / 8 ≤ walk.bufLen - walk.cur.byte ∧
    walk.bufLen - walk.cur.byte < (walk.cur.bit.toNat + 25 + 7) / 8 := by decide

/-- RDBITS 24, RD24 with just enough bits; RDBITS 25, RD36, SKIP128, BLKHDR and STRINFO with too few. -/
theorem witness_Avail_24 : Avail walk 24 := by decide

/-- The piece lists of R100, on which the counts of the composites are stated one by one. -/
theorem witness_piece_lists : walk.params.pieces = .tabulated ∧ walk.params.pieces.read16.widths = [8, 8] ∧
    walk.params.pieces.read20.widths = [8, 8, 4] ∧ walk.params.pieces.read24.widths = [8, 8, 8] ∧
    walk.params.pieces.read36.widths = [4, 8, 8, 8, 8] ∧
    walk.params.pieces.skip128.widths = List.replicate 16 8 := by decide

theorem witness_Avail_0 : Avail (load [] 0) 0 := by decide

/-- RD16 and RD20 with just enough bits and one too few. -/
theorem witness_Avail_16_20 : Avail (load [1, 2] 0) 16 ∧ Avail (load [1, 2] 1) 15 ∧ Avail (load [1, 2, 3] 4) 20 ∧
    Avail (load [1, 2, 3] 5) 19 ∧ Avail (load [1, 2, 3] 1) 23 := by decide

theorem witness_Avail_36_128 : Avail (load [1, 2, 3, 4, 5] 4) 36 ∧ Avail (load [1, 2, 3, 4, 5] 5) 35 ∧
    Avail (load (List.replicate 16 0) 0) 128 ∧ Avail (load (List.replicate 16 0) 1) 127 := by decide

theorem witness_Magic : Avail (load [0x66, 0x4C, 0x61, 0x43] 1) 31 ∧ Avail (load [0x66, 0x4C, 0x61, 0x43] 0) 32 ∧
    field (load [0x66, 0x4C, 0x61, 0x43] 0) 0 32 = magicWord ∧
    field (load [0x66, 0x4C, 0x61, 0x42] 0) 0 32 ≠ magicWord := by decide

theorem witness_Strinfo : Avail (load si6buf 0) 272 ∧ Avail (load si6buf 1) 271 := by decide

/-- The six clauses of STREAM, on prefixes and variants of E6. -/
theorem witness_Stream_lengths : Avail (load (e6buf.take 4) 1) 31 ∧ Avail (load (e6buf.take 4) 0) 32 ∧
    Avail (load (e6buf.take 8) 0) 64 ∧ Avail (load e6buf 0) 336 ∧ Avail (load (e6buf.take 41) 0) 328 ∧
    Avail (load (e6buf.take 7) 0) 56 := by decide

theorem witness_Stream_magic : ∀ n ∈ [4, 7, 8, 41, 42], field (load (e6buf.take n) 0) 0 32 = magicWord := by decide

theorem witness_Stream_header : HeaderAccepted (load e6buf 0) ∧ HeaderAccepted (loadStrict e6buf 0) ∧
    HeaderAccepted (load (e6buf.take 41) 0) ∧ HeaderAccepted (loadStrict (e6buf.take 41) 0) ∧
    ¬ HeaderAccepted (loadStrict [0x66, 0x4C, 0x61, 0x43, 0x81, 0x00, 0x00, 0x22] 0) ∧
    ¬ HeaderAccepted (loadStrict [0x66, 0x4C, 0x61, 0x43, 0x80, 0x00, 0x00, 0x23] 0) := by decide

/-- The counts at 12 and 13 bytes (V-SI-7), and at 4 and 21 bytes (V-ST-2). -/
theorem witness_NeededCounts : Avail (load (si6buf.take 12) 0) (8 * 12) ∧ Avail (load (si6buf.take 13) 0) (8 * 13) ∧
    Avail (load (e6buf.take 4) 0) (8 * 4) ∧ Avail (load (e6buf.take 21) 0) (8 * 21) := by decide

theorem witness_StreamNeededCounts : ∀ n ∈ [0, 4, 20, 21, 41], ∃ t, exec .stream (load (e6buf.take n) 0) = .next t ∧
    decide (t.kind = .incomplete) = true := by
  intro n hn
  refine ends_next ?_
  revert n hn
  decide

theorem witness_MagicIsFourBytes : (load (e6buf.take 4) 0).cur.bit = 0 ∧
    (load (e6buf.take 4) 0).cur.byte + 4 ≤ (load (e6buf.take 4) 0).bufLen := by decide

/-- A next state with outcome OK, and one with outcome Incomplete, of each command. -/
theorem witness_next_states : ∀ i ∈ [Instr.rdbits 1, .rd16, .rd20, .rd24, .rd36, .skip128, .magic, .blkhdr, .stream],
    (∃ t, exec i (load e6buf 0) = .next t ∧ decide (t.kind = .ok) = true) ∧
    (∃ t, exec i (load [] 0) = .next t ∧ decide (t.kind = .incomplete) = true) := by
  intro i hi
  refine ⟨ends_next ?_, ends_next ?_⟩ <;> revert i <;> decide

theorem witness_next_states_strinfo : (∃ t, exec .strinfo (load si6buf 0) = .next t ∧ decide (t.kind = .ok) = true) ∧
    (∃ t, exec .strinfo (load [] 0) = .next t ∧ decide (t.kind = .incomplete) = true) :=
  ⟨ends_next (by decide), ends_next (by decide)⟩

/-- MAGIC and STREAM can end Invalid. -/
theorem witness_next_states_invalid : ∀ i ∈ [Instr.magic, .stream],
    ∃ t, exec i (load [0, 0, 0, 0] 0) = .next t ∧ decide (t.kind = .invalid) = true := by
  intro i hi
  refine ends_next ?_
  revert i
  decide

/-- A command word: a command that ends Incomplete, and a reserved word. -/
theorem witness_NeededAgreesWithKind : (∃ t, hostCmd 0x00 (load [] 0) = .next t ∧ decide (t.kind = .incomplete) = true) ∧
    (∃ t, hostCmd 0x45 (load [] 0) = .next t ∧ decide (t.kind = .badcmd) = true) :=
  ⟨ends_next (by decide), ends_next (by decide)⟩

/-- Bytes above BUF_LEN and old results differ; the input of a command is the same. -/
theorem witness_SameInput : SameInput walk { walk with buf := cells 0 [0xA5, 0xC3, 0x7E, 0xFF], vBh := true, kind := .invalid } :=
  ⟨rfl, rfl, by decide, rfl⟩

/-- So is it with another piece table. -/
theorem witness_SameInput_other_pieces : SameInput walk (otherPieces walk) ∧
    (otherPieces walk).params.pieces ≠ walk.params.pieces := ⟨⟨rfl, rfl, by decide, rfl⟩, by decide⟩

theorem witness_ExtendsInput : ExtendsInput walk (load [0xA5, 0xC3, 0x7E, 0xFF] 0) := ⟨rfl, by decide, by decide, rfl⟩

/-- MAGIC, BLKHDR and STRINFO in sequence end OK on E6. -/
theorem witness_three_commands : (load e6buf 0).params.strictHdr = false ∧
    ends (exec .magic (load e6buf 0)) (fun t1 => decide (t1.kind = .ok) && ends (exec .blkhdr t1)
      (fun t2 => decide (t2.kind = .ok) && ends (exec .strinfo t2)
        (fun t => decide (t.kind = .ok ∧ t.si = e6info ∧ t.cur = ⟨42, 0⟩)))) = true := by decide

/-- V-SI-6 is the encoding of its stream info with checksum 0xDEADBEEF. -/
theorem witness_RoundTrip : (load si6buf 0).cur = ⟨0, 0⟩ ∧ (load si6buf 0).bufLen = 34 ∧
    ∀ k, k < 34 → (load si6buf 0).memByte k =
      BitVec.ofNat 8 (packedInfo ⟨1, 65535, 0, 16777215, 1, 8, 24, 1⟩ 0xDEADBEEF / 2 ^ (8 * (33 - k))) := by decide +kernel

/-- P4: RDBITS 1 is Incomplete at the end of the bytes, and one byte more is enough. -/
theorem witness_Retry : (∃ t, exec (.rdbits 1) (load [] 0) = .next t ∧
      decide (t.kind = .incomplete ∧ t.cur = ⟨0, 0⟩ ∧ t.bufLen = 0) = true) ∧
    (bitsConsumed (.rdbits 1) : Int) ≤ (load [0x80] 0).remaining (load [0x80] 0).cur :=
  ⟨ends_next (by decide), by decide⟩

/-- Cursors that are not well formed: past the end, and inside the byte behind the last. -/
theorem witness_ill_formed_cursors : ¬ walk.cursorWf ⟨3, 1⟩ ∧ ¬ walk.cursorWf ⟨4, 0⟩ ∧ walk.cursorWf ⟨3, 0⟩ := by decide

/-- Indices and values at the edges of the ranges of the host's writes (capacity 64). -/
theorem witness_host_ranges : 63 < walk.params.bufCap ∧ walk.params.bufCap ≤ 64 ∧ 64 ≤ walk.params.bufCap ∧
    walk.params.bufCap < 65 := by decide

theorem witness_OtherRegisters : (0x02 : RegNum).toNat = 0x02 ∧ 0x06 ≤ (0x06 : RegNum).toNat ∧
    0x12 ≤ (0x12 : RegNum).toNat ∧ 0x12 ≤ (0xFF : RegNum).toNat := by decide

theorem witness_HostAccessKeepsResults : (∀ w, Transaction.write 0x05 3 ≠ .cmd w) ∧
    (∀ v, Transaction.write 0x05 3 ≠ .write 0x00 v) ∧ Transaction.write 0x05 3 ≠ .reset ∧
    ∃ t, perform (.write 0x05 3) walk = .next t := by
  refine ⟨by simp, fun v h => ?_, by simp, ⟨_, rfl⟩⟩
  simp only [Transaction.write.injEq] at h
  exact absurd h.1 (by decide)

theorem witness_BufMacro : ([0xA5, 0xC3] : List Byte).length ≤ (load [] 0).params.bufCap ∧
    State.pending { load [] 0 with pending := [.bufWrite 0 0xA5, .bufWrite 1 0xC3, .write 0x05 2, .cmd 0x07] } =
      (Line.buf [0xA5, 0xC3]).transactions 0 ++ [.cmd 0x07] := by decide

/-- The capacity and the buffer of a loaded machine are good, and a step leads on. -/
theorem witness_Inv : Inv { walk with pending := [.cmd 0x07] } ∧
    ∃ t, step { walk with pending := [.cmd 0x07] } = .next t ∧ decide (t.kind = .ok ∧ t.value = 0xA5) = true := by
  refine ⟨?_, ends_next (by decide)⟩
  constructor <;> decide

theorem witness_StepRunsDecodedCommand : State.pending { walk with pending := [.cmd 0x07, .reset] } = [.cmd 0x07, .reset] ∧
    decode 0x07 = .ok (.rdbits 8) ∧ decodeTableWord 8 0x07 = some (.rdbits 8) ∧ walk.pending = [] := by decide

end Sys2Proof.Tests
end

section
/-! PROOFS. The statements of 10_state.md: what every command and every transaction of the host keeps. -/

namespace Sys2Proof

open Machine

/-! ### The end of a command: cursor, NEEDED and the frame of the input -/

theorem raise_kind_ne_ok (s : State) (gs : List Group) (e : Raise) : (s.raise gs e).kind ≠ .ok := by
  cases e <;> simp

namespace Machine.Ends

variable {i : Instr} {s t : State}

theorem params_eq (h : Ends i s t) : t.params = s.params := by cases h <;> simp

theorem bufLen_eq (h : Ends i s t) : t.bufLen = s.bufLen := by cases h <;> simp

theorem buf_eq (h : Ends i s t) : t.buf = s.buf := by cases h <;> simp

theorem cur_of_ok (h : Ends i s t) (hk : t.kind = .ok) : t.cur = s.cur.advance (bitsConsumed i) := by
  cases h with
  | ok => rfl
  | short => exact absurd hk (raise_kind_ne_ok _ _ _)
  | invalid => exact absurd hk (raise_kind_ne_ok _ _ _)

theorem cur_of_not_ok (h : Ends i s t) (hk : t.kind ≠ .ok) : t.cur = s.cur := by
  cases h with
  | ok => exact absurd rfl hk
  | short => exact raise_cur ..
  | invalid => exact raise_cur ..

/-- A command that starts within the stream ends within it: it commits only when all its bits are there. -/
theorem cursorWf (h : Ends i s t) (hw : s.cursorWf s.cur) : t.cursorWf t.cur := by
  rw [cursorWf_iff] at hw ⊢
  cases h with
  | ok hb hc => simpa using hb
  | short => simpa using hw
  | invalid => simpa using hw

theorem needed_of_incomplete (h : Ends i s t) (hk : t.kind = .incomplete) :
    1 ≤ t.needed.toNat ∧ t.needed.toNat ≤ 64 := by
  cases h with
  | ok => cases hk
  | short k h1 h2 hb =>
    rw [raise_incomplete, BitVec.toNat_ofNat, Nat.mod_eq_of_lt (by omega)]
    exact ⟨h1, h2⟩
  | invalid => cases hk

theorem needed_of_not_incomplete (h : Ends i s t) (hk : t.kind ≠ .incomplete) : t.needed = 0 := by
  cases h with
  | ok => rfl
  | short => exact absurd rfl hk
  | invalid => rfl

end Machine.Ends

/-! ### The end of a command: the three result groups -/

/-- The valid flag of a group (10_state.md R16, R18). -/
def groupFlag (s : State) : Group → Bool
  | .value => s.vValue
  | .bh => s.vBh
  | .si => s.vSi

/-- `t` has the flag and the registers of a group as in `s`. -/
def KeepsGroup (s t : State) : Group → Prop
  | .value => t.vValue = s.vValue ∧ t.value = s.value
  | .bh => t.vBh = s.vBh ∧ t.bh = s.bh
  | .si => t.vSi = s.vSi ∧ t.si = s.si

theorem KeepsGroup.groupFlag_eq {s t : State} {g : Group} (h : KeepsGroup s t g) : groupFlag t g = groupFlag s g := by
  cases g <;> exact h.1

/-- The results have an entry for a group. -/
def delivers (r : Results) : Group → Bool
  | .value => r.value.isSome
  | .bh => r.bh.isSome
  | .si => r.si.isSome

/-- A command delivers its target groups and no others. -/
theorem delivers_delivered (s : State) (i : Instr) (g : Group) :
    delivers (delivered s i) g = decide (g ∈ targetGroups i) := by
  cases i <;> cases g <;> rfl

theorem groupFlag_commit (s : State) (c : Cursor) (r : Results) (g : Group) :
    groupFlag (s.commit c r) g = (delivers r g || groupFlag s g) := by
  cases g <;> rfl

theorem groupFlag_raise (s : State) (gs : List Group) (e : Raise) (g : Group) :
    groupFlag (s.raise gs e) g = (groupFlag s g && decide (g ∉ gs)) := by
  cases g
  · exact raise_vValue s gs e
  · exact raise_vBh s gs e
  · exact raise_vSi s gs e

theorem keepsGroup_commit (s : State) (c : Cursor) (r : Results) (g : Group) (h : delivers r g = false) :
    KeepsGroup s (s.commit c r) g := by
  cases g <;> simp_all [KeepsGroup, delivers]

theorem keepsGroup_raise (s : State) (gs : List Group) (e : Raise) (g : Group) (h : g ∉ gs) :
    KeepsGroup s (s.raise gs e) g := by
  cases g
  · exact ⟨by simp [h], raise_value s gs e h⟩
  · exact ⟨by simp [h], raise_bh s gs e h⟩
  · exact ⟨by simp [h], raise_si s gs e h⟩

/-- A target group is valid exactly after success (10_state.md R18). -/
theorem Machine.Ends.groupFlag_iff {i : Instr} {s t : State} (h : Ends i s t) (g : Group) (hg : g ∈ targetGroups i) :
    groupFlag t g = true ↔ t.kind = .ok := by
  have failed : ∀ e, groupFlag (s.raise (targetGroups i) e) g = true ↔ (s.raise (targetGroups i) e).kind = .ok := by
    intro e
    simp [groupFlag_raise, hg, raise_kind_ne_ok]
  cases h with
  | ok => simp [groupFlag_commit, delivers_delivered, hg]
  | short => exact failed _
  | invalid => exact failed _

/-- A group that is no target is as before (10_state.md R18). -/
theorem Machine.Ends.keepsGroup {i : Instr} {s t : State} (h : Ends i s t) (g : Group) (hg : g ∉ targetGroups i) :
    KeepsGroup s t g := by
  cases h with
  | ok => exact keepsGroup_commit _ _ _ _ (by simp [delivers_delivered, hg])
  | short => exact keepsGroup_raise _ _ _ _ hg
  | invalid => exact keepsGroup_raise _ _ _ _ hg

/-! ### The values a command delivers are in range -/

/-- The range of BH_TYPE (10_state.md R20, 30_encoding.md R73). -/
def HeaderInRange (h : BlockHeader) : Prop := h.blockType.toNat ≤ 8

/-- The ranges of SI_NCH and SI_BPS (10_state.md R21, 30_encoding.md R76). -/
def InfoInRange (x : StreamInfo) : Prop :=
  (1 ≤ x.nch.toNat ∧ x.nch.toNat ≤ 8) ∧ (1 ≤ x.bps.toNat ∧ x.bps.toNat ≤ 32)

theorem field_lt_two_pow (s : State) (a n : Nat) : field s a n < 2 ^ n := by
  have h := field_lt s ((⟨0, 0⟩ : Cursor).advance a) n
  rwa [Cursor.addr_advance, show Cursor.addr ⟨0, 0⟩ = 0 from rfl, Nat.zero_add] at h

theorem typeCode_le (t : Nat) : typeCode t ≤ 8 := by
  unfold typeCode
  split_ifs <;> omega

theorem headerInRange_headerAt (s : State) (a : Nat) : HeaderInRange (headerAt s a) := by
  have := typeCode_le (field s (a + 1) 7)
  simp only [HeaderInRange, headerAt, BitVec.toNat_ofNat]
  omega

theorem infoInRange_infoAt (s : State) (a : Nat) : InfoInRange (infoAt s a) := by
  have hc := field_lt_two_pow s (a + 100) 3
  have hd := field_lt_two_pow s (a + 103) 5
  simp only [InfoInRange, infoAt, BitVec.toNat_ofNat]
  omega

theorem headerInRange_of_delivered {s : State} {i : Instr} {h : BlockHeader} (hd : (delivered s i).bh = some h) :
    HeaderInRange h := by
  cases i with
  | blkhdr => exact Option.some.inj hd ▸ headerInRange_headerAt _ _
  | stream => exact Option.some.inj hd ▸ headerInRange_headerAt _ _
  | _ => cases hd

theorem infoInRange_of_delivered {s : State} {i : Instr} {x : StreamInfo} (hd : (delivered s i).si = some x) :
    InfoInRange x := by
  cases i with
  | strinfo => exact Option.some.inj hd ▸ infoInRange_infoAt _ _
  | stream => exact Option.some.inj hd ▸ infoInRange_infoAt _ _
  | _ => cases hd

/-- Where the content of a valid group comes from: the command that just succeeded, or the state before it. -/
theorem Machine.Ends.delivered_or_kept {i : Instr} {s t : State} (h : Ends i s t) (g : Group)
    (ht : groupFlag t g = true) :
    (t = s.commit (s.cur.advance (bitsConsumed i)) (delivered s i) ∧ delivers (delivered s i) g = true) ∨
      (groupFlag s g = true ∧ KeepsGroup s t g) := by
  by_cases hg : g ∈ targetGroups i
  · have hk := (h.groupFlag_iff g hg).mp ht
    cases h with
    | ok => exact .inl ⟨rfl, by simp [delivers_delivered, hg]⟩
    | short => exact absurd hk (raise_kind_ne_ok _ _ _)
    | invalid => exact absurd hk (raise_kind_ne_ok _ _ _)
  · have hk := h.keepsGroup g hg
    exact .inr ⟨hk.groupFlag_eq ▸ ht, hk⟩

theorem Machine.Ends.headerInRange {i : Instr} {s t : State} (h : Ends i s t)
    (hs : s.vBh = true → HeaderInRange s.bh) (ht : t.vBh = true) : HeaderInRange t.bh := by
  obtain ⟨rfl, hd⟩ | ⟨hv, -, hb⟩ := h.delivered_or_kept .bh ht
  · obtain ⟨x, hx⟩ := Option.isSome_iff_exists.mp hd
    simpa [hx] using headerInRange_of_delivered hx
  · rw [hb]
    exact hs hv

theorem Machine.Ends.infoInRange {i : Instr} {s t : State} (h : Ends i s t)
    (hs : s.vSi = true → InfoInRange s.si) (ht : t.vSi = true) : InfoInRange t.si := by
  obtain ⟨rfl, hd⟩ | ⟨hv, -, hb⟩ := h.delivered_or_kept .si ht
  · obtain ⟨x, hx⟩ := Option.isSome_iff_exists.mp hd
    simpa [hx] using infoInRange_of_delivered hx
  · rw [hb]
    exact hs hv

/-! ### Every transaction keeps the good states -/

theorem exec_keeps_inv {i : Instr} {s t : State} (hs : Inv s) (h : exec i s = .next t) : Inv t := by
  obtain ⟨-, hw, he⟩ := exec_next h
  have hinfo := he.infoInRange fun hv => ⟨hs.channels hv, hs.depth hv⟩
  have hlen : t.bufLen ≤ t.params.bufCap := by rw [he.bufLen_eq, he.params_eq]; exact hs.bufLen
  exact {
    bufCap := by rw [he.params_eq]; exact hs.bufCap
    curByte := (he.cursorWf hw).1.trans hlen
    bufLen := hlen
    bufWf := by rw [he.buf_eq]; exact hs.bufWf
    bufIn := by rw [he.buf_eq, he.params_eq]; exact hs.bufIn
    neededIncomplete := he.needed_of_incomplete
    neededOther := he.needed_of_not_incomplete
    blockType := he.headerInRange hs.blockType
    channels := fun hv => (hinfo hv).1
    depth := fun hv => (hinfo hv).2 }

/-- Everything `HostCmd` can do: a command, or BADCMD entry. -/
theorem hostCmd_next {w : CommandWord} {s t : State} (h : hostCmd w s = .next t) :
    (∃ i, decode w = .ok i ∧ exec i s = .next t) ∨ t = s.badCommand := by
  unfold hostCmd at h
  split at h
  · exact .inl ⟨_, ‹_›, h⟩
  · cases h
    exact .inr rfl

theorem badCommand_keeps_inv {s : State} (hs : Inv s) : Inv s.badCommand :=
  { hs with neededIncomplete := fun h => (by cases h), neededOther := fun _ => rfl }

theorem hostCmd_keeps_inv {w : CommandWord} {s t : State} (hs : Inv s) (h : hostCmd w s = .next t) : Inv t := by
  obtain ⟨i, -, hi⟩ | rfl := hostCmd_next h
  · exact exec_keeps_inv hs hi
  · exact badCommand_keeps_inv hs

theorem hostBufWrite_keeps_inv {i : Nat} {v : Byte} {s t : State} (hs : Inv s) (h : hostBufWrite i v s = .next t) :
    Inv t := by
  obtain ⟨hi, rfl⟩ := hostBufWrite_next h
  refine { hs with bufWf := Memory.write_wf _ _ _ hs.bufWf, bufIn := fun x hx => ?_ }
  obtain hx | hx := Memory.mem_write s.buf i x.1 v (List.mem_map_of_mem hx)
  · rwa [hx]
  · obtain ⟨y, hy, hyx⟩ := List.mem_map.mp hx
    rw [← hyx]
    exact hs.bufIn y hy

theorem hostWrite_keeps_inv {num : RegNum} {v : Nat} {s t : State} (hs : Inv s) (h : hostWrite num v s = .next t) :
    Inv t := by
  obtain ⟨-, -, h⟩ | ⟨-, hv, rfl⟩ | ⟨-, -, rfl⟩ | ⟨-, hv, rfl⟩ | rfl := hostWrite_next h
  · exact hostCmd_keeps_inv hs h
  · exact { hs with curByte := hv }
  · exact { hs with }
  · exact { hs with bufLen := hv }
  · exact hs

theorem hostRead_keeps_inv {num : RegNum} {s t : State} (hs : Inv s) (h : hostRead num s = .next t) : Inv t := by
  obtain ⟨d, v, h'⟩ := hostRead_next num s
  cases h'.symm.trans h
  exact { hs with }

/-- A state with the reset values of 10_state.md R31 and an empty buffer is good, whatever the unspecified registers
hold. -/
theorem inv_of_reset_values {t : State} (hcap : 1 ≤ t.params.bufCap) (hcur : t.cur = ⟨0, 0⟩) (hlen : t.bufLen = 0)
    (hbuf : t.buf = []) (hkind : t.kind = .ok) (hneeded : t.needed = 0) (hbh : t.vBh = false) (hsi : t.vSi = false) :
    Inv t := by
  constructor
  case bufWf => exact hbuf ▸ List.Pairwise.nil
  all_goals simp [hcap, hcur, hlen, hbuf, hkind, hneeded, hbh, hsi]

theorem perform_keeps_inv {x : Transaction} {s t : State} (hs : Inv s) (h : perform x s = .next t) : Inv t := by
  cases x with
  | cmd w => exact hostCmd_keeps_inv hs h
  | bufWrite i v => exact hostBufWrite_keeps_inv hs h
  | write num v => exact hostWrite_keeps_inv hs h
  | read num => exact hostRead_keeps_inv hs h
  | reset =>
    cases h
    exact inv_of_reset_values hs.bufCap rfl rfl rfl rfl rfl rfl rfl

/-- Settles O58: the step is idle or performs one transaction, and each of the five keeps the invariant. -/
theorem stepKeepsGoodStates : Obligations.StepKeepsGoodStates := by
  intro s t hs h
  unfold step at h
  split at h
  · cases h
    exact hs
  case h_2 x rest _ =>
    have hrest : Inv { s with pending := rest } := { hs with }
    exact perform_keeps_inv hrest h

/-! ### What holds of every command -/

/-- Settles O29: by the three ways a command can end. -/
theorem cursorMovesByBitsConsumed : Obligations.CursorMovesByBitsConsumed := by
  intro i s t h
  obtain ⟨-, -, he⟩ := exec_next h
  exact ⟨he.cur_of_ok, he.cur_of_not_ok⟩

/-- Settles O30: the bound on the bit address is well-formedness again. -/
theorem commandKeepsCursorWellFormed : Obligations.CommandKeepsCursorWellFormed := by
  intro i s t h
  obtain ⟨-, hw, he⟩ := exec_next h
  exact ⟨he.cursorWf hw, (cursorWf_iff t t.cur).mp (he.cursorWf hw)⟩

/-- Settles O31: a word is a command, whose NEEDED its end fixes, or BADCMD. -/
theorem neededAgreesWithKind : Obligations.NeededAgreesWithKind := by
  intro w s t h
  obtain ⟨i, -, hi⟩ | rfl := hostCmd_next h
  · obtain ⟨-, -, he⟩ := exec_next hi
    exact ⟨he.needed_of_incomplete, he.needed_of_not_incomplete⟩
  · exact ⟨fun hk => (by cases hk), fun _ => rfl⟩

/-- Settles O32, group by group. -/
theorem resultGroupsFollowOutcome : Obligations.ResultGroupsFollowOutcome := by
  intro i s t h
  obtain ⟨-, -, he⟩ := exec_next h
  exact ⟨he.groupFlag_iff .value, he.groupFlag_iff .bh, he.groupFlag_iff .si,
    he.keepsGroup .value, he.keepsGroup .bh, he.keepsGroup .si⟩

/-! ### Where a command stops -/

theorem runCommand_refused {gs : List Group} {body : State → Cursor → Except Raise (Cursor × Results)} {s : State}
    (h : ¬ s.cursorWf s.cur) : runCommand gs body s = .refused .illFormedCursor := if_neg h

theorem exec_refused {i : Instr} {s : State} (hi : i.wellFormed = true) (h : ¬ s.cursorWf s.cur) :
    exec i s = .refused .illFormedCursor := by
  cases i with
  | rdbits n =>
    simp only [Instr.wellFormed, Bool.and_eq_true, decide_eq_true_eq] at hi
    simp only [exec, execRdbits, if_pos hi]
    exact runCommand_refused h
  | _ => exact runCommand_refused h

/-- Settles O45: the check of the cursor stands before every body, and no body is refused. -/
theorem refusedExactlyAtIllFormedCursor : Obligations.RefusedExactlyAtIllFormedCursor :=
  fun _ _ hi => ⟨exec_refused hi, exec_total hi⟩

/-! ### The host -/

/-- Settles O53: the other transactions write the buffer, a position, or what the host has read. -/
theorem hostAccessKeepsResults : Obligations.HostAccessKeepsResults := by
  intro x s t hcmd hwrite hreset h
  cases x with
  | cmd w => exact absurd rfl (hcmd w)
  | bufWrite i v =>
    obtain ⟨-, rfl⟩ := hostBufWrite_next h
    exact ⟨rfl, rfl, rfl, rfl, rfl, rfl, rfl, rfl⟩
  | write num v =>
    have hnum : num.toNat ≠ 0x00 := fun h0 => hwrite v (by rw [BitVec.eq_of_toNat_eq (y := (0x00 : RegNum)) h0])
    obtain ⟨h0, -, -⟩ | ⟨-, -, rfl⟩ | ⟨-, -, rfl⟩ | ⟨-, -, rfl⟩ | rfl := hostWrite_next h
    · exact absurd h0 hnum
    all_goals exact ⟨rfl, rfl, rfl, rfl, rfl, rfl, rfl, rfl⟩
  | read num =>
    obtain ⟨d, v, h'⟩ := hostRead_next num s
    cases h'.symm.trans h
    exact ⟨rfl, rfl, rfl, rfl, rfl, rfl, rfl, rfl⟩
  | reset => exact absurd rfl hreset

/-! ### STATUS and reset -/

/-- The fields of a word put together as STATUS is (10_state.md R16): 32 words in all. -/
theorem fields_of_appended_status : ∀ (k : BitVec 2) (v b i : Bool),
    let w : BitVec 5 := BitVec.ofBool i ++ (BitVec.ofBool b ++ (BitVec.ofBool v ++ k))
    w.extractLsb' 0 2 = k ∧ w.getLsbD 2 = v ∧ w.getLsbD 3 = b ∧ w.getLsbD 4 = i := by
  decide

/-- Settles O28: STATUS is such a word. -/
theorem statusLayout : Obligations.StatusLayout := by
  intro s
  obtain ⟨hkind, hvalue, hbh, hsi⟩ := fields_of_appended_status s.kind.code s.vValue s.vBh s.vSi
  exact ⟨hkind, hvalue, hbh, hsi, rfl, rfl, rfl, rfl⟩

/-- Settles O56: each value is read off the definition; the capacity is a successor. -/
theorem resetValues : Obligations.ResetValues :=
  ⟨fun _ => ⟨rfl, rfl, rfl, rfl, rfl, rfl, rfl⟩, rfl, rfl, Nat.le_add_left 1 _, rfl, rfl, rfl, rfl, rfl, rfl⟩

/-- Settles O57: the values of O56 make a good state. -/
theorem resetIsGood : Obligations.ResetIsGood := by
  obtain ⟨-, -, -, hcap, -⟩ := resetValues
  exact inv_of_reset_values hcap rfl rfl rfl rfl rfl rfl rfl

end Sys2Proof
end

section
/-! PROOFS. The statements of 20_memory.md: stream bits as one unsigned number. -/

namespace Sys2Proof

open Machine

/-- A primitive read succeeds exactly when its bits are in the buffer, at any cursor (40_bit_cursor.md R92): one
that is not well formed has no bit left. -/
theorem take_eq_ok_iff (s : State) (c c' : Cursor) (n v : Nat) :
    s.take c n = .ok (c', v) ↔ c.addr + n ≤ 8 * s.bufLen ∧ c' = c.advance n ∧ v = s.bitsAt c n := by
  rw [State.take, remaining_eq]
  split
  case isTrue hshort =>
    have : ¬ c.addr + n ≤ 8 * s.bufLen := by omega
    simp [this]
  case isFalse henough =>
    have : c.addr + n ≤ 8 * s.bufLen := by omega
    simp [this, eq_comm]

/-- Settles O10: the second read's bits lie behind the first's, so all are there for one read of both. -/
theorem adjacentReadsConcatenate : Obligations.AdjacentReadsConcatenate := by
  intro s c c1 c2 m n u v _ _ _ hfirst hsecond
  obtain ⟨-, rfl, rfl⟩ := (take_eq_ok_iff s c c1 m u).mp hfirst
  obtain ⟨hbits, rfl, rfl⟩ := (take_eq_ok_iff s _ c2 n v).mp hsecond
  rw [Cursor.addr_advance, Nat.add_assoc] at hbits
  exact (take_eq_ok_iff ..).mpr ⟨hbits, Cursor.advance_advance .., (bitsAt_add ..).symm⟩

end Sys2Proof
end

section
/-! PROOFS. The statements of 30_encoding.md: command words, the tags of the block types and the line BUF. -/

namespace Sys2Proof

open Machine

/-! ### The fields of a command word (30_encoding.md R61) -/

theorem grpField_toNat (w : CommandWord) : (grpField w).toNat = w.toNat / 64 := by
  have := w.isLt
  simp only [grpField, BitVec.extractLsb'_toNat, Nat.shiftRight_eq_div_pow]
  omega

theorem argField_toNat (w : CommandWord) : (argField w).toNat = w.toNat % 64 := by
  simp [argField, BitVec.extractLsb'_toNat]

theorem wordC8_toNat (g : BitVec 2) (a : BitVec 6) : (wordC8 g a).toNat = g.toNat * 64 + a.toNat := by
  rw [wordC8, BitVec.toNat_append, Nat.shiftLeft_eq, Nat.mul_comm, ← Nat.two_pow_add_eq_or_of_lt a.isLt]

/-! ### The words of the commands -/

/-- The words of group 0 are the widths of RDBITS less 1 (30_encoding.md R63). -/
theorem decode_of_lt {w : CommandWord} (h : w.toNat < 64) : decode w = .ok (.rdbits (w.toNat + 1)) := by
  have hgrp : (grpField w).toNat = 0 := by rw [grpField_toNat]; omega
  have harg : (argField w).toNat = w.toNat := by rw [argField_toNat]; omega
  rw [decode, hgrp, harg]
  rfl

theorem wellFormed_rdbits_iff (n : Nat) : (Instr.rdbits n).wellFormed = true ↔ 1 ≤ n ∧ n ≤ 64 := by
  simp [Instr.wellFormed]

theorem encode_rdbits_toNat {n : Nat} (h : n ≤ 64) : (encode (.rdbits n)).toNat = n - 1 := by
  rw [encode, wordC8_toNat, BitVec.toNat_ofNat]
  show 0 * 64 + (n - 1) % 2 ^ 6 = n - 1
  omega

/-- Settles O3: the word of RDBITS n is n - 1, which is in group 0; each other command has one word. -/
theorem decodeOfEncode : Obligations.DecodeOfEncode := by
  intro i hi
  cases i with
  | rdbits n =>
    obtain ⟨hpos, hle⟩ := (wellFormed_rdbits_iff n).mp hi
    have hword := encode_rdbits_toNat hle
    rw [decode_of_lt (by omega), hword, Nat.sub_add_cancel hpos]
  | _ => rfl

/-! ### The reserved words -/

/-- The selectors of group 1 from 5 on belong to no combinator. -/
theorem decode_of_combinatorSelector {w : CommandWord} (h : 0x45 ≤ w.toNat ∧ w.toNat ≤ 0x7F) :
    decode w = .error .combinatorSelector := by
  have hgrp : (grpField w).toNat = 1 := by rw [grpField_toNat]; omega
  have harg : (argField w).toNat = w.toNat - 0x45 + 5 := by rw [argField_toNat]; omega
  rw [decode, hgrp, harg]
  rfl

/-- The selectors of group 2 from 4 on belong to no decoder. -/
theorem decode_of_decoderSelector {w : CommandWord} (h : 0x84 ≤ w.toNat ∧ w.toNat ≤ 0xBF) :
    decode w = .error .decoderSelector := by
  have hgrp : (grpField w).toNat = 2 := by rw [grpField_toNat]; omega
  have harg : (argField w).toNat = w.toNat - 0x84 + 4 := by rw [argField_toNat]; omega
  rw [decode, hgrp, harg]
  rfl

theorem decode_of_group3 {w : CommandWord} (h : 0xC0 ≤ w.toNat) : decode w = .error .group3 := by
  have hgrp : (grpField w).toNat = 3 := by
    have := w.isLt
    rw [grpField_toNat]
    omega
  rw [decode, hgrp]
  rfl

/-- The words that no row of the opcode map has (30_encoding.md R64). -/
def IsReserved (w : CommandWord) : Prop := (0x45 ≤ w.toNat ∧ w.toNat ≤ 0x7F) ∨ 0x84 ≤ w.toNat

theorem decode_of_isReserved {w : CommandWord} (h : IsReserved w) : ∃ r, decode w = .error r := by
  obtain h1 | h23 := h
  · exact ⟨_, decode_of_combinatorSelector h1⟩
  · obtain h2 | h3 := Nat.lt_or_ge w.toNat 0xC0
    · exact ⟨_, decode_of_decoderSelector ⟨h23, Nat.le_of_lt_succ h2⟩⟩
    · exact ⟨_, decode_of_group3 h3⟩

/-- Every word is the word of a command or reserved (30_encoding.md R62). -/
theorem encoded_or_isReserved (w : CommandWord) :
    (∃ i : Instr, i.wellFormed = true ∧ w = encode i) ∨ IsReserved w := by
  by_cases hrd : w.toNat < 64
  · refine .inl ⟨.rdbits (w.toNat + 1), (wellFormed_rdbits_iff _).mpr (by omega), BitVec.eq_of_toNat_eq ?_⟩
    rw [encode_rdbits_toNat (by omega), Nat.add_sub_cancel]
  by_cases hres : IsReserved w
  · exact .inr hres
  have hnine : w.toNat = 0x40 ∨ w.toNat = 0x41 ∨ w.toNat = 0x42 ∨ w.toNat = 0x43 ∨ w.toNat = 0x44 ∨
      w.toNat = 0x80 ∨ w.toNat = 0x81 ∨ w.toNat = 0x82 ∨ w.toNat = 0x83 := by
    unfold IsReserved at hres
    omega
  left
  obtain h | h | h | h | h | h | h | h | h := hnine
  · exact ⟨.rd16, rfl, BitVec.eq_of_toNat_eq h⟩
  · exact ⟨.rd20, rfl, BitVec.eq_of_toNat_eq h⟩
  · exact ⟨.rd24, rfl, BitVec.eq_of_toNat_eq h⟩
  · exact ⟨.rd36, rfl, BitVec.eq_of_toNat_eq h⟩
  · exact ⟨.skip128, rfl, BitVec.eq_of_toNat_eq h⟩
  · exact ⟨.magic, rfl, BitVec.eq_of_toNat_eq h⟩
  · exact ⟨.blkhdr, rfl, BitVec.eq_of_toNat_eq h⟩
  · exact ⟨.strinfo, rfl, BitVec.eq_of_toNat_eq h⟩
  · exact ⟨.stream, rfl, BitVec.eq_of_toNat_eq h⟩

/-- Settles O4: a word that decodes is not reserved, so it is a command's word, which decodes to that command alone. -/
theorem encodeOfDecode : Obligations.EncodeOfDecode := by
  intro w i h
  obtain ⟨j, hj, rfl⟩ | hres := encoded_or_isReserved w
  · cases (decodeOfEncode j hj).symm.trans h
    exact ⟨hj, rfl⟩
  · obtain ⟨r, hr⟩ := decode_of_isReserved hres
    cases hr.symm.trans h

theorem hostCmd_of_error {w : CommandWord} {r : ReservedWord} (h : decode w = .error r) (s : State) :
    hostCmd w s = .next s.badCommand := by
  rw [hostCmd, h]

/-- Settles O5: a reserved word does not decode, so `HostCmd` is BADCMD entry. -/
theorem reservedWordIsBadCommand : Obligations.ReservedWordIsBadCommand := by
  intro s w hw
  obtain ⟨r, hr⟩ := decode_of_isReserved hw
  exact hostCmd_of_error hr s

/-! ### The opcode map -/

/-- Settles O1: each word is the encoding of its command. -/
theorem tabulatedWordsDecode : Obligations.TabulatedWordsDecode :=
  ⟨decodeOfEncode (.rdbits 1) rfl, decodeOfEncode .rd8 rfl, decodeOfEncode (.rdbits 64) rfl,
    decodeOfEncode .rd16 rfl, decodeOfEncode .rd20 rfl, decodeOfEncode .rd24 rfl,
    decodeOfEncode .rd36 rfl, decodeOfEncode .skip128 rfl, decodeOfEncode .magic rfl,
    decodeOfEncode .blkhdr rfl, decodeOfEncode .strinfo rfl, decodeOfEncode .stream rfl⟩

/-- The word of a command selects its row of the opcode map (30_encoding.md R62). -/
theorem selects_encode (i : Instr) (hi : i.wellFormed = true) : (opcodeRow i).selects (encode i) = true := by
  cases i with
  | rdbits n => exact (Laws.EncodingRow.rdbits n hi).1
  | _ => rfl

/-- The number is that of a command's word. -/
def isCommandWord (w : Nat) : Bool := (decode (BitVec.ofNat 8 w)).toOption.isSome

/-- The four groups of 64 words each have 64, 5, 4 and no words of commands (30_encoding.md R62). -/
theorem length_commandWords_of_groups :
    ((List.range' 0 64).filter isCommandWord).length = 64 ∧ ((List.range' 64 64).filter isCommandWord).length = 5 ∧
      ((List.range' 128 64).filter isCommandWord).length = 4 ∧
      ((List.range' 192 64).filter isCommandWord).length = 0 := by
  decide

/-- There are 73 words of commands (30_encoding.md R62). -/
theorem length_commandWords : ((List.range 256).filter isCommandWord).length = 73 := by
  have hgroups : List.range 256 =
      List.range' 0 64 ++ List.range' 64 64 ++ List.range' 128 64 ++ List.range' 192 64 := by
    rw [List.range_eq_range', List.range'_append_1, List.range'_append_1, List.range'_append_1]
  obtain ⟨h0, h1, h2, h3⟩ := length_commandWords_of_groups
  rw [hgroups]
  simp only [List.filter_append, List.length_append, h0, h1, h2, h3]

/-- Settles O2: the words of the commands by O3, the reserved ones by their ranges, the rows by O4. -/
theorem commandMapAsTabulated : Obligations.CommandMapAsTabulated := by
  refine ⟨fun w => ?_, fun w i h => ?_, length_commandWords⟩
  · obtain ⟨i, hi, rfl⟩ | hres := encoded_or_isReserved w
    · cases i with
      | rdbits n =>
        obtain ⟨hpos, hle⟩ := (wellFormed_rdbits_iff n).mp hi
        have hword := encode_rdbits_toNat hle
        rw [if_pos (by omega)]
        exact decode_of_lt (by omega)
      | _ => exact decodeOfEncode _ hi
    · obtain ⟨r, hr⟩ := decode_of_isReserved hres
      unfold IsReserved at hres
      iterate 10 rw [if_neg (by omega)]
      rw [hr]
      rfl
  · obtain ⟨hi, rfl⟩ := encodeOfDecode w i h
    exact selects_encode i hi

/-- Settles O46: no width outside `[1,64]` passes the check of `execRdbits`, and by O4 no word has one. -/
theorem widthOutOfRangeRefused : Obligations.WidthOutOfRangeRefused := by
  constructor
  · intro n s hn
    have hout : ¬ (1 ≤ n ∧ n ≤ 64) := by omega
    exact if_neg hout
  · intro n w hn h
    obtain ⟨hwf, -⟩ := encodeOfDecode w _ h
    have hin := (wellFormed_rdbits_iff n).mp hwf
    omega

/-! ### The tags of the block types -/

theorem blockTypeOf_reserved : ∀ t < 128, (blockTypeOf t = .reserved ↔ 7 ≤ t ∧ t ≤ 126) := by decide

/-- The reserved tags are the 120 tags from 7 to 126 (30_encoding.md R73). -/
theorem filter_reserved_tags :
    ((List.range 128).filter fun t => decide (blockTypeOf t = .reserved)) = List.range' 7 120 := by
  have hsplit : List.range 128 = List.range' 0 7 ++ List.range' 7 120 ++ List.range' 127 1 := by
    rw [List.range_eq_range', List.range'_append_1, List.range'_append_1]
  have hall : ∀ t ∈ List.range' 7 120, decide (blockTypeOf t = .reserved) = true := by
    intro t ht
    have hbounds := List.mem_range'_1.mp ht
    exact decide_eq_true ((blockTypeOf_reserved t (by omega)).mpr (by omega))
  rw [hsplit, List.filter_append, List.filter_append, List.filter_eq_self.mpr hall]
  exact List.append_nil _

/-- Settles O27: the codes tag by tag, and the list of the reserved tags. -/
theorem blockTypeMap : Obligations.BlockTypeMap :=
  ⟨fun t ht => code_blockTypeOf t (List.mem_range.mp ht), by rw [filter_reserved_tags, List.length_range'], rfl⟩

/-! ### The line BUF (30_encoding.md R66) -/

/-- The buffer after the bytes are written one by one from an index on. -/
def writeBytes : Memory → Nat → List Byte → Memory
  | m, _, [] => m
  | m, i, b :: bs => writeBytes (Memory.write m i b) (i + 1) bs

theorem memByte_writeBytes_below (s : State) (i j : Nat) (bs : List Byte) (h : j < i) :
    State.memByte { s with buf := writeBytes s.buf i bs } j = s.memByte j := by
  induction bs generalizing s i with
  | nil => rfl
  | cons b bs ih =>
    have htail := ih { s with buf := Memory.write s.buf i b } (i + 1) (by omega)
    exact htail.trans (by rw [memByte_write, if_neg (by omega)])

theorem memByte_writeBytes_add (s : State) (i k : Nat) (bs : List Byte) :
    State.memByte { s with buf := writeBytes s.buf i bs } (i + k) = bs[k]?.getD (s.memByte (i + k)) := by
  induction bs generalizing s i k with
  | nil => rfl
  | cons b bs ih =>
    cases k with
    | zero =>
      have htail := memByte_writeBytes_below { s with buf := Memory.write s.buf i b } (i + 1) i bs (by omega)
      exact htail.trans (by rw [memByte_write, if_pos rfl]; rfl)
    | succ k =>
      have htail := ih { s with buf := Memory.write s.buf i b } (i + 1) k
      rw [memByte_write, if_neg (by omega), Nat.add_assoc, Nat.add_comm 1 k] at htail
      exact htail

/-- The host's run of any machine, one step on. -/
theorem coreRun_succ_of_step {M : Host.Core} {s t : M.State} (h : M.step s = .next t) (k : Nat) :
    M.run (k + 1) s = M.run k t := by
  rw [Host.Core.run, h]

theorem run_succ_of_step {s t : State} (h : step s = .next t) (k : Nat) : core.run (k + 1) s = core.run k t :=
  coreRun_succ_of_step (M := core) h k

theorem step_bufWrite {s : State} {i : Nat} {v : Byte} {rest : List Transaction}
    (hp : s.pending = .bufWrite i v :: rest) (hi : i < s.params.bufCap) :
    step s = .next { s with buf := Memory.write s.buf i v, pending := rest } := by
  rw [step, hp]
  exact if_pos hi

theorem step_writeBufLen {s : State} {v : Nat} {rest : List Transaction}
    (hp : s.pending = .write 0x05 v :: rest) (hv : v ≤ s.params.bufCap) :
    step s = .next { s with bufLen := v, pending := rest } := by
  rw [step, hp]
  exact if_pos hv

/-- A run of the buffer writes from index `i` on leaves the rest of the run to the transactions behind them. -/
theorem run_bufWrites {s : State} {i : Nat} {bs : List Byte} {rest : List Transaction}
    (hp : s.pending = bufWrites i bs ++ rest) (hi : i + bs.length ≤ s.params.bufCap) (k : Nat) :
    core.run (bs.length + k) s = core.run k { s with buf := writeBytes s.buf i bs, pending := rest } := by
  induction bs generalizing s i with
  | nil =>
    subst hp
    rw [List.length_nil, Nat.zero_add]
    rfl
  | cons b bs ih =>
    rw [List.length_cons] at hi ⊢
    have hfirst := step_bufWrite hp (by omega)
    have hrest : i + 1 + bs.length ≤ s.params.bufCap := by omega
    rw [Nat.add_right_comm]
    exact (run_succ_of_step hfirst _).trans (ih rfl hrest)

/-- Settles O54: the run of the buffer writes, then one step that sets BUF_LEN. -/
theorem bufMacroLoadsBuffer : Obligations.BufMacroLoadsBuffer := by
  intro s bytes rest len hcap hp
  have hp' : s.pending = bufWrites 0 bytes ++ .write 0x05 bytes.length :: rest := by simpa [Line.transactions] using hp
  have hbyte (j : Nat) : State.memByte { s with buf := writeBytes s.buf 0 bytes } j = bytes[j]?.getD (s.memByte j) := by
    simpa using memByte_writeBytes_add s 0 j bytes
  refine ⟨writeBytes s.buf 0 bytes, ?_, fun i hi => ?_, fun j hj => ?_⟩
  · have hbytes := run_bufWrites hp' (by omega) 1
    have hlen := step_writeBufLen (rest := rest)
      (s := { s with buf := writeBytes s.buf 0 bytes, pending := .write 0x05 bytes.length :: rest }) rfl hcap
    exact hbytes.trans (run_succ_of_step hlen 0)
  · rw [hbyte, List.getElem?_eq_getElem hi, Option.getD_some]
  · rw [hbyte, List.getElem?_eq_none hj, Option.getD_none]

end Sys2Proof
end

section
/-! PROOFS. The statements of 40_bit_cursor.md: the cursor, the primitive read, RDBITS, and what a command depends
on. -/

namespace Sys2Proof

open Machine

/-! ### The cursor -/

theorem bit_advance (c : Cursor) (n : Nat) : (c.advance n).bit.toNat = (c.bit.toNat + n) % 8 := by
  simp [Cursor.advance]

/-- A cursor is well formed when its bit address is at most that of the end of the stream. -/
theorem remaining_nonneg_iff (s : State) (c : Cursor) : 0 ≤ s.remaining c ↔ s.cursorWf c := by
  rw [remaining_eq, cursorWf_iff]
  omega

/-- Settles O6: both laws are laws of the bit address. -/
theorem advanceComposes : Obligations.AdvanceComposes := by
  intro s c m n
  refine ⟨rfl, bit_advance c n, Cursor.advance_advance c m n, ?_⟩
  rw [remaining_eq, remaining_eq, Cursor.addr_advance]
  omega

/-- Settles O7: the formula is the definition. -/
theorem remainingNonnegIffWellFormed : Obligations.RemainingNonnegIffWellFormed :=
  fun s c => ⟨rfl, remaining_nonneg_iff s c⟩

/-! ### The primitive read -/

theorem take_of_remaining_lt {s : State} {c : Cursor} {n : Nat} (h : s.remaining c < n) :
    s.take c n = .error (.incomplete (n - s.remaining c).toNat) := if_pos h

theorem take_of_le_remaining {s : State} {c : Cursor} {n : Nat} (h : (n : Int) ≤ s.remaining c) :
    s.take c n = .ok (c.advance n, s.bitsAt c n) := if_neg (by omega)

/-- Settles O8: the two cases of the read, and the number read is the field. -/
theorem primitiveRead : Obligations.PrimitiveRead := by
  intro s c n R _ _ _ hR
  refine ⟨fun h => ?_, fun h => ?_, field_lt s c n⟩
  · rw [take_of_remaining_lt (by omega), hR]
    congr 2
    omega
  · rw [take_of_le_remaining (by omega), bitsAt_eq_field]

/-- A read that is short carries its shortfall. -/
theorem shortfall_of_take_incomplete {s : State} {c : Cursor} {n k : Nat} (h : s.take c n = .error (.incomplete k)) :
    s.remaining c < n ∧ (k : Int) = n - s.remaining c := by
  by_cases hlt : s.remaining c < n
  · rw [take_of_remaining_lt hlt] at h
    cases h
    omega
  · rw [take_of_le_remaining (by omega)] at h
    cases h

/-- Settles O9: each byte more is eight bits more. -/
theorem shortfallBounds : Obligations.ShortfallBounds := by
  intro s c n k _ _ hw h
  obtain ⟨hlt, hk⟩ := shortfall_of_take_incomplete h
  have hnonneg := (remaining_nonneg_iff s c).mpr hw
  refine ⟨hk, by omega, by omega, fun L hL => ?_, fun L hL => ⟨_, take_of_le_remaining hL⟩⟩
  rw [remaining_eq] at hk ⊢
  show (n : Int) ≤ (8 * L : Nat) - c.addr
  omega

/-! ### RDBITS -/

/-- Failure entry with outcome Incomplete is a failed command (60_exceptions.md R184). -/
theorem failed_raise_incomplete (s : State) (gs : List Group) {k : Nat} (hk : k ≤ 64) :
    Failed s (s.raise gs (.incomplete k)) gs .incomplete k where
  kind := rfl
  needed := by rw [raise_incomplete, BitVec.toNat_ofNat, Nat.mod_eq_of_lt (by omega)]
  cur := raise_cur ..
  bufLen := raise_bufLen ..
  buf := raise_buf ..
  params := raise_params ..
  pending := raise_pending ..
  hostData := raise_hostData ..
  epoch := raise_epoch ..
  vValue := raise_vValue ..
  vBh := raise_vBh ..
  vSi := raise_vSi ..
  value := raise_value s gs _
  bh := raise_bh s gs _
  si := raise_si s gs _

theorem exec_rdbits {n : Nat} (h1 : 1 ≤ n) (h64 : n ≤ 64) (s : State) :
    exec (.rdbits n) s = runCommand [.value] (rdbitsBody n) s := if_pos ⟨h1, h64⟩

/-- Settles O14: the body is one read. -/
theorem rdbitsMeaning : Obligations.RdbitsMeaning := by
  rintro s n R h1 h64 ⟨hw, hR⟩
  have hread := readsAs_rdbitsBody s n s.cur hw
  rw [remaining_eq] at hR
  rw [exec_rdbits h1 h64]
  refine ⟨?_, fun h => ?_, fun h => ?_⟩
  · have hword : (BitVec.ofNat 8 (n - 1)).toNat = n - 1 := by rw [BitVec.toNat_ofNat]; omega
    rw [decode_of_lt (by omega), hword, Nat.sub_add_cancel h1]
  · exact runCommand_readsAs_ok hw hread (by rw [List.sum_singleton]; omega)
  · have hcount : shortfall [n] (8 * s.bufLen - s.cur.addr) = n - R := by
      rw [shortfall, if_pos (by omega)]
      omega
    refine ⟨_, runCommand_readsAs_short hw hread (by rw [List.sum_singleton]; omega), ?_⟩
    rw [hcount]
    exact failed_raise_incomplete s [.value] (by omega)

/-- Settles O13: the bytes suffice exactly when the bits do, and RDBITS is O14. -/
theorem enoughBytesSuffice : Obligations.EnoughBytesSuffice := by
  intro s n h1 h64 hw
  have hnonneg := (remaining_nonneg_iff s s.cur).mpr hw
  obtain ⟨R, hR⟩ := Int.eq_ofNat_of_zero_le hnonneg
  obtain ⟨-, hok, hshort⟩ := rdbitsMeaning s n R h1 h64 ⟨hw, hR⟩
  have hbit := s.cur.bit_lt
  rw [State.remaining] at hR
  refine ⟨fun h => ⟨_, hok (by omega), rfl, bit_advance s.cur n⟩, fun h => ?_⟩
  obtain ⟨t, ht, hfailed⟩ := hshort (by omega)
  exact ⟨t, ht, hfailed.kind⟩

/-! ### What no command changes -/

namespace Machine.Ends

variable {i : Instr} {s t : State}

theorem pending_eq (h : Ends i s t) : t.pending = s.pending := by cases h <;> simp

theorem hostData_eq (h : Ends i s t) : t.hostData = s.hostData := by cases h <;> simp

theorem epoch_eq (h : Ends i s t) : t.epoch = s.epoch := by cases h <;> simp

/-- A command keeps the list of written bytes and the epoch, which fix what every byte of the buffer reads as. -/
theorem keepsInput (h : Ends i s t) : KeepsInput s t where
  memByte a := by rw [State.memByte, State.memByte, h.buf_eq, h.epoch_eq]
  bufLen := h.bufLen_eq
  params := h.params_eq
  pending := h.pending_eq
  hostData := h.hostData_eq
  epoch := h.epoch_eq

end Machine.Ends

/-- Settles O41: the one target group of these commands is VALUE. -/
theorem frameOfValueCommands : Obligations.FrameOfValueCommands := by
  intro i n s t hi h
  obtain ⟨-, -, he⟩ := exec_next h
  have hgs : targetGroups i = [.value] := by rcases hi with rfl | rfl | rfl | rfl | rfl <;> rfl
  obtain ⟨hvBh, hbh⟩ := he.keepsGroup .bh (by rw [hgs]; decide)
  obtain ⟨hvSi, hsi⟩ := he.keepsGroup .si (by rw [hgs]; decide)
  exact ⟨he.keepsInput, hbh, hvBh, hsi, hvSi⟩

/-! ### The extension law -/

theorem SameInput.extendsInput {s t : State} (h : SameInput s t) : ExtendsInput s t :=
  ⟨h.cur, h.bufLen.ge, h.bytes, h.strictHdr⟩

theorem SameInput.symm {s t : State} (h : SameInput s t) : SameInput t s :=
  ⟨h.cur.symm, h.bufLen.symm, fun i hi => (h.bytes i (h.bufLen ▸ hi)).symm, h.strictHdr.symm⟩

/-- The content checks of a command reach their bits and fail: the magic for MAGIC and STREAM, the header for STREAM
(44_stream_decoder.md R142, R146). -/
def Rejects (s : State) : Instr → Prop
  | .magic => s.cur.addr + 32 ≤ 8 * s.bufLen ∧ field s s.cur.addr 32 ≠ magicWord
  | .stream => (s.cur.addr + 32 ≤ 8 * s.bufLen ∧ field s s.cur.addr 32 ≠ magicWord) ∨
      (s.cur.addr + 64 ≤ 8 * s.bufLen ∧ ¬ HeaderAccepted s)
  | _ => False

namespace ExtendsInput

variable {s t : State}

theorem cursorWf (h : ExtendsInput s t) (hw : s.cursorWf s.cur) : t.cursorWf t.cur := by
  have hlen := h.bufLen
  rw [cursorWf_iff] at hw ⊢
  rw [h.cur]
  omega

/-- A field within the shorter stream is the same in the longer one. -/
theorem field_eq (h : ExtendsInput s t) {a n : Nat} (hn : a + n ≤ 8 * s.bufLen) : field t a n = field s a n := by
  refine Finset.sum_congr rfl fun k hk => ?_
  have hk := Finset.mem_range.mp hk
  rw [streamBit, streamBit, h.bytes _ (by omega)]

theorem headerAt_eq (h : ExtendsInput s t) {a : Nat} (ha : a + 32 ≤ 8 * s.bufLen) : headerAt t a = headerAt s a := by
  simp (disch := omega) only [headerAt, h.field_eq]

theorem infoAt_eq (h : ExtendsInput s t) {a : Nat} (ha : a + 144 ≤ 8 * s.bufLen) : infoAt t a = infoAt s a := by
  simp (disch := omega) only [infoAt, h.field_eq]

theorem delivered_eq (h : ExtendsInput s t) {i : Instr} (hb : s.cur.addr + bitsConsumed i ≤ 8 * s.bufLen) :
    delivered t i = delivered s i := by
  cases i <;> simp only [bitsConsumed] at hb <;>
    simp (disch := omega) only [delivered, h.cur, h.field_eq, h.headerAt_eq, h.infoAt_eq]

theorem headerAccepted_iff (h : ExtendsInput s t) (hb : s.cur.addr + 64 ≤ 8 * s.bufLen) :
    HeaderAccepted t ↔ HeaderAccepted s := by
  rw [HeaderAccepted, HeaderAccepted, h.strictHdr, h.cur, h.field_eq (by omega), h.field_eq (by omega)]

theorem contentAccepted (h : ExtendsInput s t) {i : Instr} (hb : s.cur.addr + bitsConsumed i ≤ 8 * s.bufLen)
    (hc : ContentAccepted s i) : ContentAccepted t i := by
  cases i with
  | magic =>
    simp only [bitsConsumed] at hb
    rwa [ContentAccepted, h.cur, h.field_eq (by omega)]
  | stream =>
    simp only [bitsConsumed] at hb
    rwa [ContentAccepted, h.headerAccepted_iff (by omega), h.cur, h.field_eq (by omega)]
  | _ => trivial

theorem magicRejected (h : ExtendsInput s t)
    (hr : s.cur.addr + 32 ≤ 8 * s.bufLen ∧ field s s.cur.addr 32 ≠ magicWord) :
    t.cur.addr + 32 ≤ 8 * t.bufLen ∧ field t t.cur.addr 32 ≠ magicWord := by
  obtain ⟨hb, hm⟩ := hr
  have hlen := h.bufLen
  rw [h.cur, h.field_eq hb]
  exact ⟨by omega, hm⟩

theorem rejects (h : ExtendsInput s t) {i : Instr} (hr : Rejects s i) : Rejects t i := by
  cases i with
  | magic => exact h.magicRejected hr
  | stream =>
    obtain hr | ⟨hb, ha⟩ := hr
    · exact .inl (h.magicRejected hr)
    · have hlen := h.bufLen
      exact .inr ⟨by rw [h.cur]; omega, mt (h.headerAccepted_iff hb).mp ha⟩
  | _ => exact hr

end ExtendsInput

/-- The same results delivered are the same target groups. -/
theorem sameResults_commit (s t : State) (c : Cursor) (r : Results) {gs : List Group}
    (h : ∀ g ∈ gs, delivers r g = true) : SameResults gs (s.commit c r) (t.commit c r) where
  value hg := by obtain ⟨x, hx⟩ := Option.isSome_iff_exists.mp (h _ hg); simp [hx]
  bh hg := by obtain ⟨x, hx⟩ := Option.isSome_iff_exists.mp (h _ hg); simp [hx]
  si hg := by obtain ⟨x, hx⟩ := Option.isSome_iff_exists.mp (h _ hg); simp [hx]

/-- A command that ends OK ends OK on every longer input: its bits and its content are the same there. -/
theorem Machine.Ends.ok_of_extends {i : Instr} {s t s' t' : State} (h : ExtendsInput s t) (hs : Ends i s s')
    (hk : s'.kind = .ok) (ht : Ends i t t') :
    t'.kind = .ok ∧ t'.cur = s'.cur ∧ SameResults (targetGroups i) s' t' := by
  have hlen := h.bufLen
  cases hs with
  | short => exact absurd hk (raise_kind_ne_ok _ _ _)
  | invalid => exact absurd hk (raise_kind_ne_ok _ _ _)
  | ok hb hc =>
    cases ht with
    | short _ _ _ hb' => rw [h.cur] at hb'; omega
    | invalid _ hc' => exact absurd (h.contentAccepted hb hc) hc'
    | ok =>
      rw [h.cur, h.delivered_eq hb]
      exact ⟨rfl, rfl, sameResults_commit s t _ _ fun g hg => by simpa [delivers_delivered] using hg⟩

/-- Settles O36: the command completes on the longer input, and there it ends OK. -/
theorem moreBytesKeepSuccess : Obligations.MoreBytesKeepSuccess := by
  intro i s t s' h hs hk
  obtain ⟨hi, hw, hends⟩ := exec_next hs
  obtain ⟨t', ht⟩ := exec_total hi (h.cursorWf hw)
  obtain ⟨-, -, hends'⟩ := exec_next ht
  exact ⟨t', ht, hends.ok_of_extends h hk hends'⟩

/-! ### Purity -/

/-- A command ends INVALID exactly when its body raises it. -/
theorem runCommand_invalid_iff {gs : List Group} {body : State → Cursor → Except Raise (Cursor × Results)}
    {s t : State} (h : runCommand gs body s = .next t) : t.kind = .invalid ↔ body s s.cur = .error .invalid := by
  obtain ⟨-, ⟨c, r, hb, rfl⟩ | ⟨e, hb, rfl⟩⟩ := runCommand_next h
  · simp [hb]
  · cases e <;> simp [hb]

theorem Rejects.magic_or_stream {s : State} {i : Instr} (h : Rejects s i) : i = .magic ∨ i = .stream := by
  cases i with
  | magic => exact .inl rfl
  | stream => exact .inr rfl
  | _ => exact h.elim

/-- Where MAGIC and STREAM end INVALID: at a content check whose bits are there, whatever follows it. -/
theorem exec_invalid_iff {i : Instr} {s t : State} (h : exec i s = .next t) : t.kind = .invalid ↔ Rejects s i := by
  obtain ⟨-, hw, he⟩ := exec_next h
  by_cases hi : i = .magic ∨ i = .stream
  case neg =>
    have hkind : t.kind ≠ .invalid := by
      cases he with
      | ok => simp
      | short => simp
      | invalid hi' => exact absurd hi' hi
    exact iff_of_false hkind fun hr => hi hr.magic_or_stream
  obtain rfl | rfl := hi
  · rw [runCommand_invalid_iff h, magicBody_eq s s.cur hw, Rejects]
    split_ifs <;> simp [*]
  · rw [runCommand_invalid_iff h, streamBody_eq s s.cur hw, Rejects]
    split_ifs with h32 hm h64 ha hall
    · simpa [hm] using fun _ => ha
    · simpa [hm] using fun _ => ha
    · simp [h64, ha]
    · simp [hm, h64]
    · simp [h32, hm]
    · have h64 : ¬ s.cur.addr + 64 ≤ 8 * s.bufLen := by omega
      simp [h32, h64]

/-- On the same input a command has the same outcome: OK and INVALID each carry over in both directions. -/
theorem kind_eq_of_sameInput {i : Instr} {s t s' t' : State} (h : SameInput s t) (hs : exec i s = .next s')
    (ht : exec i t = .next t') : t'.kind = s'.kind := by
  obtain ⟨-, -, hends⟩ := exec_next hs
  obtain ⟨-, -, hends'⟩ := exec_next ht
  have hinvalid : t'.kind = .invalid ↔ s'.kind = .invalid := by
    rw [exec_invalid_iff hs, exec_invalid_iff ht]
    exact ⟨h.symm.extendsInput.rejects, h.extendsInput.rejects⟩
  have hok : s'.kind = .ok → t'.kind = .ok := fun hk => (hends.ok_of_extends h.extendsInput hk hends').1
  have hok' : t'.kind = .ok → s'.kind = .ok := fun hk => (hends'.ok_of_extends h.symm.extendsInput hk hends).1
  cases hends with
  | ok => exact hok rfl
  | invalid => exact hinvalid.mpr rfl
  | short =>
    cases hends' with
    | ok => exact absurd (hok' rfl) (raise_kind_ne_ok _ _ _)
    | invalid => exact (hinvalid.mp rfl).symm
    | short => rfl

/-! A command reaches the buffer through the primitive read alone, so on the same input and with equal piece tables its
body gives the same. -/

section SameReads

variable {s t : State}

theorem SameInput.take_eq (h : SameInput s t) : t.take = s.take := by
  funext c n
  have hrem : t.remaining c = s.remaining c := by rw [State.remaining, State.remaining, h.bufLen]
  by_cases hlt : s.remaining c < n
  · rw [take_of_remaining_lt hlt, take_of_remaining_lt (hrem ▸ hlt), hrem]
  · have henough := not_lt.mp hlt
    rw [take_of_le_remaining henough, take_of_le_remaining (hrem ▸ henough)]
    rw [remaining_eq] at henough
    rw [bitsAt_congr c n (by omega) h.bytes]

variable (hread : t.take = s.take)
include hread

theorem takeSeqFrom_congr : t.takeSeqFrom = s.takeSeqFrom := by
  funext ws
  induction ws with
  | nil => rfl
  | cons w ws ih =>
    funext c v
    rw [takeSeqFrom_cons, takeSeqFrom_cons, hread, ih]

theorem skipSeq_congr : t.skipSeq = s.skipSeq := by
  funext c ws
  induction ws generalizing c with
  | nil => rfl
  | cons w ws ih => simp only [skipSeq_cons, hread, ih]

theorem verifyMagic_congr : verifyMagic t = verifyMagic s := by
  funext c
  simp only [verifyMagic, hread]

variable (hpieces : t.params.pieces = s.params.pieces)
include hpieces

theorem takeComposite_congr : t.takeComposite = s.takeComposite := by
  funext c k
  simp only [State.takeComposite, State.takeSeq, takeSeqFrom_congr hread, hpieces]

theorem skip128_congr : t.skip128 = s.skip128 := by
  funext c
  simp only [State.skip128, skipSeq_congr hread, hpieces]

theorem decodeBlockHeader_congr : decodeBlockHeader t = decodeBlockHeader s := by
  funext c
  simp only [decodeBlockHeader, hread, takeComposite_congr hread hpieces]

theorem decodeStreamInfo_congr : decodeStreamInfo t = decodeStreamInfo s := by
  funext c
  simp only [decodeStreamInfo, hread, takeComposite_congr hread hpieces, skip128_congr hread hpieces]

theorem streamBody_congr (hstrict : t.params.strictHdr = s.params.strictHdr) : streamBody t = streamBody s := by
  have hrejected : headerRejected t.params = headerRejected s.params := by
    funext x
    rw [headerRejected, headerRejected, hstrict]
  funext c
  simp only [streamBody, verifyMagic_congr hread, decodeBlockHeader_congr hread hpieces, hrejected,
    decodeStreamInfo_congr hread hpieces]

end SameReads

/-- The end of a command fixes NEEDED by what its body gives. -/
theorem runCommand_needed_congr {gs : List Group} {body : State → Cursor → Except Raise (Cursor × Results)}
    {s t s' t' : State} (hbody : body t = body s) (hcur : t.cur = s.cur) (hs : runCommand gs body s = .next s')
    (ht : runCommand gs body t = .next t') : t'.needed = s'.needed := by
  obtain ⟨hw, -⟩ := runCommand_next ht
  obtain ⟨-, ⟨c, r, hb, rfl⟩ | ⟨e, hb, rfl⟩⟩ := runCommand_next hs
  · rw [← hbody, ← hcur] at hb
    cases (runCommand_ok hw hb).symm.trans ht
    rfl
  · rw [← hbody, ← hcur] at hb
    cases (runCommand_error hw hb).symm.trans ht
    cases e <;> rfl

/-- On the same input and with equal piece tables a command reports the same NEEDED. -/
theorem needed_eq_of_sameInput {i : Instr} {s t s' t' : State} (h : SameInput s t)
    (hpieces : t.params.pieces = s.params.pieces) (hs : exec i s = .next s') (ht : exec i t = .next t') :
    t'.needed = s'.needed := by
  have hread := h.take_eq
  have hcomposite := takeComposite_congr hread hpieces
  cases i with
  | rdbits n =>
    have hn := (exec_next hs).1
    rw [wellFormed_rdbits_iff] at hn
    rw [exec_rdbits hn.1 hn.2] at hs ht
    exact runCommand_needed_congr (by funext c; simp only [rdbitsBody, hread]) h.cur hs ht
  | skip128 =>
    exact runCommand_needed_congr (by funext c; simp only [skip128Body, skip128_congr hread hpieces]) h.cur hs ht
  | magic => exact runCommand_needed_congr (by funext c; simp only [magicBody, verifyMagic_congr hread]) h.cur hs ht
  | blkhdr =>
    have hbody : blkhdrBody t = blkhdrBody s := by
      funext c; simp only [blkhdrBody, decodeBlockHeader_congr hread hpieces]
    exact runCommand_needed_congr hbody h.cur hs ht
  | strinfo =>
    have hbody : strinfoBody t = strinfoBody s := by
      funext c; simp only [strinfoBody, decodeStreamInfo_congr hread hpieces]
    exact runCommand_needed_congr hbody h.cur hs ht
  | stream => exact runCommand_needed_congr (streamBody_congr hread hpieces h.strictHdr) h.cur hs ht
  | _ => exact runCommand_needed_congr (by funext c; simp only [compositeBody, hcomposite]) h.cur hs ht

/-- Settles O37: the outcome by `kind_eq_of_sameInput`, the cursor and the results by the extension law, NEEDED by
`needed_eq_of_sameInput`. -/
theorem commandsArePure : Obligations.CommandsArePure := by
  intro i s t s' h hs
  obtain ⟨hi, hw, hends⟩ := exec_next hs
  obtain ⟨t', ht⟩ := exec_total hi (h.extendsInput.cursorWf hw)
  obtain ⟨-, -, hends'⟩ := exec_next ht
  have hkind := kind_eq_of_sameInput h hs ht
  have hok := fun hk => hends.ok_of_extends h.extendsInput hk hends'
  refine ⟨t', ht, hkind, ?_, fun hp => needed_eq_of_sameInput h hp hs ht, fun hk => (hok hk).2.2⟩
  by_cases hk : s'.kind = .ok
  · exact (hok hk).2.1
  · rw [hends'.cur_of_not_ok (hkind ▸ hk), hends.cur_of_not_ok hk, h.cur]

end Sys2Proof
end

section
/-! PROOFS. The statements of 41_field_combinators.md: composite reads, RD16 to RD36, and the frame of the commands
without a target group. -/

namespace Sys2Proof

open Machine

/-! ### Composite reads -/

/-- Settles O11: with too few bits the sequence raises, so it succeeds only where it reads the whole field. -/
theorem sequenceReadsOneField : Obligations.SequenceReadsOneField := by
  intro s c ws _ hw
  have hread := readsAs_takeSeq s ws c hw
  rw [bitsAt_eq_field] at hread
  rw [remaining_eq]
  have hok : (ws.sum : Int) ≤ (8 * s.bufLen : Nat) - (c.addr : Int) →
      s.takeSeq c ws = .ok (c.advance ws.sum, field s c.addr ws.sum) := fun h => hread.ok (by omega)
  refine ⟨hok, fun h => ⟨_, hok h⟩, ?_⟩
  rintro ⟨x, hx⟩
  by_contra hlt
  rw [hread.short (by omega)] at hx
  cases hx

/-- A sequence of reads without values is short as the read of its pieces is. -/
theorem skipSeq_of_short {s : State} {c : Cursor} {ws : List Nat} (hw : s.cursorWf c)
    (h : 8 * s.bufLen < c.addr + ws.sum) :
    s.skipSeq c ws = .error (.incomplete (shortfall ws (8 * s.bufLen - c.addr))) := by
  have hshort := (readsAs_skipSeq s ws c hw).short h
  cases hskip : s.skipSeq c ws with
  | ok c' => rw [hskip] at hshort; cases hshort
  | error e => rw [hskip] at hshort; cases hshort; rfl

/-- The piece that fails is the first whose prefix sum exceeds the bits there are (41_field_combinators.md R107). -/
theorem exists_first_short_piece {ws : List Nat} {R : Nat} (h : R < ws.sum) :
    ∃ i, i < ws.length ∧ (ws.take i).sum ≤ R ∧ R < (ws.take (i + 1)).sum ∧
      shortfall ws R = (ws.take (i + 1)).sum - R := by
  induction ws generalizing R with
  | nil => simp at h
  | cons w ws ih =>
    by_cases hw : R < w
    · exact ⟨0, by simp, by simp, by simpa using hw, by simp [shortfall, hw]⟩
    · rw [List.sum_cons] at h
      obtain ⟨i, hi, hle, hlt, hcount⟩ := ih (R := R - w) (by omega)
      refine ⟨i + 1, by simpa using hi, ?_, ?_, ?_⟩
      · rw [List.take_succ_cons, List.sum_cons]; omega
      · rw [List.take_succ_cons, List.sum_cons]; omega
      · rw [shortfall, if_neg hw, hcount, List.take_succ_cons, List.sum_cons]; omega

/-- The pieces behind a prefix have at least one bit each. -/
theorem sum_take_add_le_sum {ws : List Nat} (hw : ∀ w ∈ ws, 1 ≤ w) (n : Nat) :
    (ws.take n).sum + (ws.length - n) ≤ ws.sum := by
  have hrest := List.length_le_sum_of_one_le (ws.drop n) fun w h => hw w (List.mem_of_mem_drop h)
  rw [List.length_drop] at hrest
  have := List.sum_take_add_sum_drop ws n
  omega

/-- Settles O12: the bits behind the failing piece are what the count lacks of `W - R`. -/
theorem sequenceCountsFirstShortPiece : Obligations.SequenceCountsFirstShortPiece := by
  intro s c ws R hws hw hR hlt
  rw [remaining_eq] at hR
  have havail : 8 * s.bufLen - c.addr = R := by omega
  have htake := (readsAs_takeSeq s ws c hw).short (by omega)
  have hskip := skipSeq_of_short (ws := ws) hw (by omega)
  obtain ⟨i, hi, hle, hgt, hcount⟩ := exists_first_short_piece hlt
  rw [havail, hcount] at htake hskip
  have hpiece : (ws.take (i + 1)).sum = (ws.take i).sum + ws.getD i 0 := by
    rw [List.sum_take_succ ws i hi, List.getD_eq_getElem ws 0 hi]
  have hrest := sum_take_add_le_sum (fun w h => (hws w h).1) (i + 1)
  refine ⟨i, hi, hle, hgt, htake, hskip, by omega, by omega, fun heq => by omega, fun hlast => ?_⟩
  rw [hlast, List.take_length]

/-! ### Commands whose body is a read, by the bits that remain -/

section Reads

variable {gs : List Group} {body : State → Cursor → Except Raise (Cursor × Results)} {s : State} {R n : Nat}
  {ws : List Nat} {r : Results}

theorem runCommand_of_enough (hs : Avail s R) (hsum : ws.sum = n) (hread : ReadsAs s s.cur ws (body s s.cur) r)
    (h : n ≤ R) : runCommand gs body s = .next (s.commit (s.cur.advance n) r) := by
  obtain ⟨hw, hR⟩ := hs
  rw [remaining_eq] at hR
  subst hsum
  exact runCommand_readsAs_ok hw hread (by omega)

theorem runCommand_of_short (hs : Avail s R) (hsum : ws.sum = n) (hread : ReadsAs s s.cur ws (body s s.cur) r)
    (h : R < n) : runCommand gs body s = .next (s.raise gs (.incomplete (neededBy ws R))) := by
  obtain ⟨hw, hR⟩ := hs
  rw [remaining_eq] at hR
  subst hsum
  have havail : 8 * s.bufLen - s.cur.addr = R := by omega
  rw [runCommand_readsAs_short hw hread (by omega), havail, neededBy_eq_shortfall ws R h]

end Reads

/-- What the four composite reads share (41_field_combinators.md R101 to R104): the field into VALUE, or failure entry
with the count of the first short piece. -/
theorem compositeRead_meaning (k : Composite) {s : State} {R : Nat} (hs : Avail s R) :
    (k.total ≤ R → runCommand [.value] (compositeBody k) s = .next { s with
      cur := s.cur.advance k.total, value := BitVec.ofNat 64 (field s s.cur.addr k.total), vValue := true, kind := .ok,
      needed := 0 }) ∧
    (R < k.total → ∃ t, runCommand [.value] (compositeBody k) s = .next t ∧
      Failed s t [.value] .incomplete (neededBy (k.pieces s.params.pieces) R)) := by
  have hread := readsAs_compositeBody s k s.cur hs.1
  have hsum := pieces_sum k s.params.pieces
  refine ⟨runCommand_of_enough hs hsum hread, fun h => ⟨_, runCommand_of_short hs hsum hread h, ?_⟩⟩
  have hshort : R < (k.pieces s.params.pieces).sum := hsum ▸ h
  rw [neededBy_eq_shortfall _ R hshort]
  exact failed_raise_incomplete s _ (shortfall_bounds _ R (pieces_bounds k _) hshort).2

/-- The count is taken from the first prefix sum above the bits there are. -/
theorem neededFrom_cons (P : Nat) (Ps : List Nat) (R : Nat) :
    neededFrom (P :: Ps) R = if R < P then P - R else neededFrom Ps R := by
  unfold neededFrom
  by_cases h : R < P <;> simp [h]

/-! ### RD16, RD20, RD24 and RD36 -/

/-- Settles O15: the prefix sums of R100's list are 8 and 16. -/
theorem rd16Meaning : Obligations.Rd16Meaning := by
  intro s R hs
  obtain ⟨hok, hshort⟩ := compositeRead_meaning .read16 hs
  refine ⟨rfl, hok, fun h => ⟨hshort h, fun hlist => ?_⟩⟩
  have hprefixes : prefixSums s.params.pieces.read16.widths = [8, 16] := by rw [hlist]; rfl
  simp only [neededBy, hprefixes, neededFrom_cons, if_pos h]

/-- Settles O16: the prefix sums of R100's list are 8, 16 and 20. -/
theorem rd20Meaning : Obligations.Rd20Meaning := by
  intro s R hs
  obtain ⟨hok, hshort⟩ := compositeRead_meaning .read20 hs
  refine ⟨rfl, hok, fun h => ⟨hshort h, fun hlist => ?_⟩⟩
  have hprefixes : prefixSums s.params.pieces.read20.widths = [8, 16, 20] := by rw [hlist]; rfl
  simp only [neededBy, hprefixes, neededFrom_cons, if_pos h]

/-- Settles O17: the prefix sums of R100's list are 8, 16 and 24. -/
theorem rd24Meaning : Obligations.Rd24Meaning := by
  intro s R hs
  obtain ⟨hok, hshort⟩ := compositeRead_meaning .read24 hs
  refine ⟨rfl, hok, fun h => ⟨hshort h, fun hlist => ?_⟩⟩
  have hprefixes : prefixSums s.params.pieces.read24.widths = [8, 16, 24] := by rw [hlist]; rfl
  simp only [neededBy, hprefixes, neededFrom_cons, if_pos h]

/-- Settles O18: the prefix sums of R100's list are 4, 12, 20, 28 and 36. -/
theorem rd36Meaning : Obligations.Rd36Meaning := by
  intro s R hs
  obtain ⟨hok, hshort⟩ := compositeRead_meaning .read36 hs
  refine ⟨rfl, hok, fun h => ⟨hshort h, fun hlist => ?_⟩⟩
  have hprefixes : prefixSums s.params.pieces.read36.widths = [4, 12, 20, 28, 36] := by rw [hlist]; rfl
  simp only [neededBy, hprefixes, neededFrom_cons, if_pos h]

/-! ### SKIP128 and MAGIC -/

/-- Reading bytes in sequence lacks the rest of the byte in which the bits end. -/
theorem shortfall_replicate_eight {m R : Nat} (h : R < 8 * m) : shortfall (List.replicate m 8) R = 8 - R % 8 := by
  induction m generalizing R with
  | zero => omega
  | succ m ih =>
    rw [List.replicate_succ, shortfall]
    split
    case isTrue hfirst => rw [Nat.mod_eq_of_lt hfirst]
    case isFalse hlater => rw [ih (by omega), ← Nat.mod_eq_sub_mod (not_lt.mp hlater)]

/-- Settles O19: the body is a read that delivers nothing, and without a target group failure entry writes KIND and
NEEDED alone. -/
theorem skip128Meaning : Obligations.Skip128Meaning := by
  intro s R hs
  have hread := readsAs_skip128Body s s.cur hs.1
  have hsum := pieces_sum .skip128 s.params.pieces
  refine ⟨rfl, runCommand_of_enough hs hsum hread, fun h => ⟨runCommand_of_short hs hsum hread h, fun hlist => ?_⟩⟩
  rw [hlist, neededBy_eq_shortfall _ R (by simpa using h), shortfall_replicate_eight (by omega)]

/-- Settles O42: these commands have no target group. -/
theorem frameOfSkip128AndMagic : Obligations.FrameOfSkip128AndMagic := by
  intro i s t hi h
  obtain ⟨-, -, he⟩ := exec_next h
  have hgs : targetGroups i = [] := by rcases hi with rfl | rfl <;> rfl
  have hkeeps (g : Group) : KeepsGroup s t g := he.keepsGroup g (by simp [hgs])
  obtain ⟨hvValue, hvalue⟩ := hkeeps .value
  obtain ⟨hvBh, hbh⟩ := hkeeps .bh
  obtain ⟨hvSi, hsi⟩ := hkeeps .si
  exact ⟨he.keepsInput, hvalue, hvValue, hbh, hvBh, hsi, hvSi⟩

end Sys2Proof
end

section
/-! PROOFS. The statements of 42_block_header.md: BLKHDR, and the frame of the commands that deliver one decoded
group. -/

namespace Sys2Proof

open Machine

/-! ### Commands whose body is a read: failure entry -/

/-- A read of legal pieces that finds too few bits ends in failure entry with the count of the first short piece. -/
theorem runCommand_failed_of_short {gs : List Group} {body : State → Cursor → Except Raise (Cursor × Results)}
    {s : State} {R n : Nat} {ws : List Nat} {r : Results} (hs : Avail s R) (hws : ∀ w ∈ ws, 1 ≤ w ∧ w ≤ 64)
    (hsum : ws.sum = n) (hread : ReadsAs s s.cur ws (body s s.cur) r) (h : R < n) :
    ∃ t, runCommand gs body s = .next t ∧ Failed s t gs .incomplete (neededBy ws R) := by
  have hshort : R < ws.sum := hsum ▸ h
  refine ⟨_, runCommand_of_short hs hsum hread h, ?_⟩
  rw [neededBy_eq_shortfall ws R hshort]
  exact failed_raise_incomplete s gs (shortfall_bounds ws R hws hshort).2

/-! ### BLKHDR -/

/-- The counts of 42_block_header.md R121: the prefix sums are 1, 8, 16, 24 and 32, and below 1 there is no bit. -/
theorem neededBy_headerPieces {p : PieceTable} (hlist : p.read24.widths = [8, 8, 8]) {R : Nat} (h : R < 32) :
    neededBy (headerPieces p) R =
      if R < 1 then 1 else if R < 8 then 8 - R else if R < 16 then 16 - R else if R < 24 then 24 - R else 32 - R := by
  have hprefixes : prefixSums (headerPieces p) = [1, 8, 16, 24, 32] := by rw [headerPieces, hlist]; rfl
  simp only [neededBy, hprefixes, neededFrom_cons, if_pos h]
  exact ite_congr rfl (fun hR => by omega) fun _ => rfl

/-- Settles O21: the body reads the header's pieces and delivers the header at the cursor into the BH group. -/
theorem blkhdrMeaning : Obligations.BlkhdrMeaning := by
  intro s R hs
  have hread := readsAs_blkhdrBody s s.cur hs.1
  have hsum := headerPieces_sum s.params.pieces
  have hbounds := headerPieces_bounds s.params.pieces
  exact ⟨rfl, runCommand_of_enough hs hsum hread, fun h =>
    ⟨runCommand_failed_of_short hs hbounds hsum hread h, fun hlist => neededBy_headerPieces hlist h⟩⟩

/-! ### The frame of BLKHDR and STRINFO -/

/-- Settles O43: each command has one target group, and keeps the other two. -/
theorem frameOfBlkhdrAndStrinfo : Obligations.FrameOfBlkhdrAndStrinfo := by
  constructor
  case left =>
    intro s t h
    obtain ⟨-, -, he⟩ := exec_next h
    obtain ⟨hvValue, hvalue⟩ := he.keepsGroup .value (by decide)
    obtain ⟨hvSi, hsi⟩ := he.keepsGroup .si (by decide)
    exact ⟨he.keepsInput, hvalue, hvValue, hsi, hvSi⟩
  case right =>
    intro s t h
    obtain ⟨-, -, he⟩ := exec_next h
    obtain ⟨hvValue, hvalue⟩ := he.keepsGroup .value (by decide)
    obtain ⟨hvBh, hbh⟩ := he.keepsGroup .bh (by decide)
    exact ⟨he.keepsInput, hvalue, hvValue, hbh, hvBh⟩

end Sys2Proof
end

section
/-! PROOFS. The statements of 43_stream_info.md: STRINFO, the count of a short one, and the round trip with the encoding
of a stream info. -/

namespace Sys2Proof

open Machine

/-! ### STRINFO -/

/-- Settles O22: the body reads the pieces of STREAMINFO and delivers the stream info at the cursor into the SI
group. -/
theorem strinfoMeaning : Obligations.StrinfoMeaning := by
  intro s R hs
  have hread := readsAs_strinfoBody s s.cur hs.1
  have hsum := infoPieces_sum s.params.pieces
  have hbounds := infoPieces_bounds s.params.pieces
  exact ⟨rfl, runCommand_of_enough hs hsum hread, runCommand_failed_of_short hs hbounds hsum hread⟩

/-! ### The count of a short read -/

/-- No prefix sum is below the first piece. -/
theorem le_of_mem_prefixSums_cons {w P : Nat} {ws : List Nat} (h : P ∈ prefixSums (w :: ws)) : w ≤ P := by
  obtain rfl | h := List.mem_cons.mp h
  · exact le_rfl
  · obtain ⟨Q, -, rfl⟩ := List.mem_map.mp h
    exact Nat.le_add_right w Q

/-- NEEDED is taken from the least prefix sum above the bits there are (41_field_combinators.md R107). -/
theorem exists_least_prefixSum {ws : List Nat} {R : Nat} (h : R < ws.sum) :
    ∃ P ∈ prefixSums ws, R < P ∧ (∀ Q ∈ prefixSums ws, R < Q → P ≤ Q) ∧ neededBy ws R = P - R := by
  rw [neededBy_eq_shortfall ws R h]
  induction ws generalizing R with
  | nil => simp at h
  | cons w ws ih =>
    by_cases hw : R < w
    · exact ⟨w, .head _, hw, fun Q hQ _ => le_of_mem_prefixSums_cons hQ, by rw [shortfall, if_pos hw]⟩
    · rw [List.sum_cons] at h
      obtain ⟨P, hP, hlt, hleast, hcount⟩ := ih (R := R - w) (by omega)
      refine ⟨w + P, .tail _ (List.mem_map_of_mem hP), by omega, fun Q hQ hRQ => ?_, ?_⟩
      · obtain rfl | hQ := List.mem_cons.mp hQ
        · exact absurd hRQ hw
        · obtain ⟨Q', hQ', rfl⟩ := List.mem_map.mp hQ
          have := hleast Q' hQ' (by omega)
          omega
      · rw [shortfall, if_neg hw, hcount]
        omega

theorem prefixSums_infoPieces_tabulated : prefixSums (infoPieces .tabulated) = infoPrefixes := rfl

/-- From a whole byte the next prefix sum is 8 bits on, but 4 bits from 96 and from 104: the sample rate ends at 100 and
the depth at 108 (43_stream_info.md R132). -/
theorem neededFrom_infoPrefixes_bytes :
    ∀ m < 34, neededFrom infoPrefixes (8 * m) = if m = 12 ∨ m = 13 then 4 else 8 := by decide

/-- Settles O24: a short STRINFO carries the count of O22. -/
theorem strinfoNeededCounts : Obligations.StrinfoNeededCounts := by
  intro s R hs hR
  obtain ⟨-, -, hshort⟩ := strinfoMeaning s R hs
  obtain ⟨t, ht, hfailed⟩ := hshort hR
  refine ⟨t, ht, hfailed.kind, ?_, fun htable => ?_⟩
  · rw [hfailed.needed]
    exact exists_least_prefixSum (by rwa [infoPieces_sum])
  · rw [hfailed.needed, neededBy, htable, prefixSums_infoPieces_tabulated]
    refine ⟨rfl, fun m hm => ?_⟩
    rw [hm]
    exact neededFrom_infoPrefixes_bytes m (by omega)

/-! ### A number in the buffer -/

/-- The first `L` bytes of the buffer are the number `N`, most significant byte first. -/
def HoldsNumber (s : State) (L N : Nat) : Prop :=
  ∀ k, k < L → s.memByte k = BitVec.ofNat 8 (N / 2 ^ (8 * (L - 1 - k)))

theorem field_succ (s : State) (a n : Nat) : field s a (n + 1) = 2 * field s a n + streamBit s (a + n) := by
  have haddr : ((⟨0, 0⟩ : Cursor).advance a).addr = a := (Cursor.addr_advance ..).trans (Nat.zero_add a)
  have hbits := bitsAt_eq_field s ((⟨0, 0⟩ : Cursor).advance a)
  have h := hbits (n + 1)
  rw [State.bitsAt, hbits, bitAt_eq_streamBit, haddr] at h
  exact h.symm

/-- The stream bits are the binary digits of the number. -/
theorem HoldsNumber.streamBit_eq {s : State} {L N : Nat} (h : HoldsNumber s L N) {a : Nat} (ha : a < 8 * L) :
    streamBit s a = N / 2 ^ (8 * L - (a + 1)) % 2 := by
  have hpos : 8 * (L - 1 - a / 8) + (7 - a % 8) = 8 * L - (a + 1) := by omega
  have hbit : 7 - a % 8 < 8 := by omega
  rw [streamBit, h (a / 8) (by omega), BitVec.getLsbD_ofNat, decide_eq_true hbit, Bool.true_and, Nat.toNat_testBit,
    Nat.div_div_eq_div_mul, ← Nat.pow_add, hpos]

/-- A field is a run of the number's binary digits. -/
theorem HoldsNumber.field_eq {s : State} {L N : Nat} (h : HoldsNumber s L N) {a n : Nat} (hn : a + n ≤ 8 * L) :
    field s a n = N / 2 ^ (8 * L - (a + n)) % 2 ^ n := by
  induction n with
  | zero => simp [field, Nat.mod_one]
  | succ n ih =>
    have hpow : 8 * L - (a + n) = 8 * L - (a + (n + 1)) + 1 := by omega
    rw [field_succ, ih (by omega), h.streamBit_eq (by omega), hpow, Nat.pow_succ, ← Nat.div_div_eq_div_mul,
      Nat.pow_succ', Nat.mod_mul, Nat.add_comm, Nat.add_assoc]

/-! ### The round trip -/

/-- The fields of a stream info are runs of binary digits of its encoding (30_encoding.md R74):
the encoding is a sum of the fields, each below the weight of the one before it. -/
theorem packedInfo_digits {i : StreamInfo} {ck : Nat} (hi : InfoInRange i) (hck : ck < 2 ^ 128) :
    packedInfo i ck / 2 ^ 256 % 2 ^ 16 = i.minBlk.toNat ∧
    packedInfo i ck / 2 ^ 240 % 2 ^ 16 = i.maxBlk.toNat ∧
    packedInfo i ck / 2 ^ 216 % 2 ^ 24 = i.minFrm.toNat ∧
    packedInfo i ck / 2 ^ 192 % 2 ^ 24 = i.maxFrm.toNat ∧
    packedInfo i ck / 2 ^ 172 % 2 ^ 20 = i.rate.toNat ∧
    packedInfo i ck / 2 ^ 169 % 2 ^ 3 + 1 = i.nch.toNat ∧
    packedInfo i ck / 2 ^ 164 % 2 ^ 5 + 1 = i.bps.toNat ∧
    packedInfo i ck / 2 ^ 128 % 2 ^ 36 = i.total.toNat := by
  obtain ⟨⟨hnch, hnch'⟩, hbps, hbps'⟩ := hi
  have hminBlk := i.minBlk.isLt
  have hmaxBlk := i.maxBlk.isLt
  have hminFrm := i.minFrm.isLt
  have hmaxFrm := i.maxFrm.isLt
  have hrate := i.rate.isLt
  have htotal := i.total.isLt
  unfold packedInfo
  refine ⟨?_, ?_, ?_, ?_, ?_, ?_, ?_, ?_⟩ <;> omega

/-- A buffer that holds the encoding of a stream info has that stream info at its start (43_stream_info.md R134). -/
theorem infoAt_of_holds_packedInfo {s : State} {i : StreamInfo} {ck : Nat} (hi : InfoInRange i) (hck : ck < 2 ^ 128)
    (h : HoldsNumber s 34 (packedInfo i ck)) : infoAt s 0 = i := by
  obtain ⟨hminBlk, hmaxBlk, hminFrm, hmaxFrm, hrate, hnch, hbps, htotal⟩ := packedInfo_digits hi hck
  simp (disch := omega) only [infoAt, h.field_eq, Nat.reduceMul, Nat.reduceAdd, Nat.reduceSub, hminBlk, hmaxBlk,
    hminFrm, hmaxFrm, hrate, hnch, hbps, htotal, BitVec.ofNat_toNat, BitVec.setWidth_eq]

/-- Settles O39: all 272 bits are there, so O22 gives the stream info at the start of the buffer. -/
theorem streamInfoRoundTrip : Obligations.StreamInfoRoundTrip := by
  intro s i ck hck hnch hnch' hbps hbps' hcur hlen hbytes
  have hs : Avail s 272 := by
    rw [Avail, cursorWf_iff, remaining_eq, hcur, hlen]
    decide
  obtain ⟨-, hok, -⟩ := strinfoMeaning s 272 hs
  rw [hcur] at hok
  have hinfo := infoAt_of_holds_packedInfo ⟨⟨hnch, hnch'⟩, hbps, hbps'⟩ hck hbytes
  exact ⟨_, hok le_rfl, rfl, hinfo, rfl, rfl⟩

end Sys2Proof
end

section
/-! PROOFS. The statements of 44_stream_decoder.md: MAGIC, STREAM, the count of a short one, and STREAM as three commands
in sequence. -/

namespace Sys2Proof

open Machine

/-! ### A command that succeeds, and one whose content is rejected -/

/-- The state a command leaves when it ends OK (60_exceptions.md R183). -/
def succeeded (s : State) (i : Instr) : State := s.commit (s.cur.advance (bitsConsumed i)) (delivered s i)

/-- A command whose bits are there and whose content is accepted ends OK. -/
theorem exec_of_accepted {i : Instr} {s : State} (hi : i.wellFormed = true)
    (hb : s.cur.addr + bitsConsumed i ≤ 8 * s.bufLen) (hc : ContentAccepted s i) :
    exec i s = .next (succeeded s i) := by
  obtain ⟨t, ht⟩ := exec_total hi ((cursorWf_iff s s.cur).mpr (by omega))
  obtain ⟨-, -, he⟩ := exec_next ht
  cases he with
  | ok => exact ht
  | short _ _ _ hb' => omega
  | invalid _ hc' => exact absurd hc hc'

/-- A command that ends OK had its bits, and its content was accepted (60_exceptions.md R189). -/
theorem accepted_of_exec_ok {i : Instr} {s t : State} (h : exec i s = .next t) (hk : t.kind = .ok) :
    s.cur.addr + bitsConsumed i ≤ 8 * s.bufLen ∧ ContentAccepted s i ∧ t = succeeded s i := by
  obtain ⟨-, -, he⟩ := exec_next h
  cases he with
  | ok hb hc => exact ⟨hb, hc, rfl⟩
  | short => exact absurd hk (raise_kind_ne_ok _ _ _)
  | invalid => exact absurd hk (raise_kind_ne_ok _ _ _)

/-- A command that ends INCOMPLETE lacked bits. -/
theorem Machine.Ends.short_of_incomplete {i : Instr} {s t : State} (h : Ends i s t) (hk : t.kind = .incomplete) :
    8 * s.bufLen < s.cur.addr + bitsConsumed i := by
  cases h with
  | ok => cases hk
  | short _ _ _ hb => exact hb
  | invalid => cases hk

/-- A check that reaches its bits starts from a well-formed cursor. -/
theorem Rejects.addr_le {s : State} {i : Instr} (h : Rejects s i) : s.cur.addr ≤ 8 * s.bufLen := by
  cases i with
  | magic => exact (Nat.le_add_right _ _).trans h.1
  | stream => obtain ⟨hb, -⟩ | ⟨hb, -⟩ := h <;> omega
  | _ => exact h.elim

/-- A command whose content is rejected ends INVALID. -/
theorem exec_of_rejects {i : Instr} {s : State} (h : Rejects s i) :
    exec i s = .next (s.raise (targetGroups i) .invalid) := by
  have hi : i.wellFormed = true := by obtain rfl | rfl := h.magic_or_stream <;> rfl
  obtain ⟨t, ht⟩ := exec_total hi ((cursorWf_iff s s.cur).mpr h.addr_le)
  have hk := (exec_invalid_iff ht).mpr h
  obtain ⟨-, -, he⟩ := exec_next ht
  cases he with
  | ok => cases hk
  | short => cases hk
  | invalid => exact ht

/-- Failure entry with outcome Invalid is a failed command with count 0 (60_exceptions.md R184): it differs from the one
with outcome Incomplete in KIND and NEEDED alone. -/
theorem failed_raise_invalid (s : State) (gs : List Group) : Failed s (s.raise gs .invalid) gs .invalid 0 :=
  { failed_raise_incomplete s gs (Nat.zero_le 64) with kind := rfl, needed := rfl }

/-- The bits that remain, as a bound on bit addresses. -/
theorem addr_add_le_iff {s : State} {R : Nat} (hs : Avail s R) (n : Nat) :
    s.cur.addr + n ≤ 8 * s.bufLen ↔ n ≤ R := by
  have hR := hs.2
  rw [remaining_eq] at hR
  omega

/-- The bits that remain, as the bodies of the commands count them. -/
theorem sub_addr_eq {s : State} {R : Nat} (hs : Avail s R) : 8 * s.bufLen - s.cur.addr = R := by
  have hR := hs.2
  rw [remaining_eq] at hR
  omega

/-! ### MAGIC -/

/-- MAGIC short of bits is short of the rest of a byte, whatever the bits hold (44_stream_decoder.md R142). -/
theorem magicBody_of_short {s : State} {R : Nat} (hs : Avail s R) (h : R < 32) :
    magicBody s s.cur = .error (.incomplete (8 - R % 8)) := by
  have hcount : shortfall [8, 8, 8, 8] R = 8 - R % 8 := shortfall_replicate_eight (m := 4) h
  rw [magicBody_eq s s.cur hs.1, if_neg (by rw [addr_add_le_iff hs]; omega), sub_addr_eq hs, hcount]

/-- Settles O20: without a target group failure entry writes KIND and NEEDED alone. -/
theorem magicMeaning : Obligations.MagicMeaning := by
  intro s R hs
  have hbits := addr_add_le_iff hs 32
  exact ⟨rfl, fun h => runCommand_error (gs := []) hs.1 (magicBody_of_short hs h),
    fun h hm => exec_of_accepted (i := .magic) rfl (hbits.mpr h) hm,
    fun h hm => exec_of_rejects (i := .magic) ⟨hbits.mpr h, hm⟩⟩

/-- A field inside one byte holds the byte's leading bits (20_memory.md R42). -/
theorem field_within_byte (s : State) (i : Nat) {n : Nat} (hn : n ≤ 8) :
    field s (8 * i) n = (s.memByte i).toNat / 2 ^ (8 - n) := by
  induction n with
  | zero =>
    have hbyte := (s.memByte i).isLt
    rw [Nat.div_eq_of_lt (by simpa using hbyte)]
    rfl
  | succ n ih =>
    have hbyte : (8 * i + n) / 8 = i := by omega
    have hbit : 7 - (8 * i + n) % 8 = 8 - (n + 1) := by omega
    have hpow : 8 - n = 8 - (n + 1) + 1 := by omega
    rw [field_succ, ih (by omega), streamBit, hbyte, hbit, BitVec.getLsbD, Nat.toNat_testBit, hpow, Nat.pow_succ,
      ← Nat.div_div_eq_div_mul]
    exact Nat.div_add_mod _ 2

theorem field_byte (s : State) (i : Nat) : field s (8 * i) 8 = (s.memByte i).toNat := by
  simpa using field_within_byte s i le_rfl

/-- Adjacent fields are one wide field (20_memory.md R44). -/
theorem field_add (s : State) (a m n : Nat) : field s a (m + n) = field s a m * 2 ^ n + field s (a + m) n := by
  induction n with
  | zero => simp [field]
  | succ n ih => rw [← Nat.add_assoc, field_succ, ih, field_succ, Nat.add_assoc]; ring

/-- The magic at a byte boundary is the four bytes `66 4C 61 43` (30_encoding.md R70, 44_stream_decoder.md R143). -/
theorem field_eq_magicWord_iff (s : State) (i : Nat) :
    field s (8 * i) 32 = magicWord ↔ s.memByte i = 0x66 ∧ s.memByte (i + 1) = 0x4C ∧ s.memByte (i + 2) = 0x61 ∧
      s.memByte (i + 3) = 0x43 := by
  have hsplit : field s (8 * i) 32 = (((s.memByte i).toNat * 2 ^ 8 + (s.memByte (i + 1)).toNat) * 2 ^ 8
      + (s.memByte (i + 2)).toNat) * 2 ^ 8 + (s.memByte (i + 3)).toNat := by
    simp only [← field_byte, Nat.mul_add, Nat.reduceMul]
    rw [show (32 : Nat) = 8 + 8 + 8 + 8 from rfl, field_add, field_add, field_add]
  have h0 := (s.memByte i).isLt
  have h1 := (s.memByte (i + 1)).isLt
  have h2 := (s.memByte (i + 2)).isLt
  have h3 := (s.memByte (i + 3)).isLt
  rw [hsplit, magicWord]
  simp only [← BitVec.toNat_inj, BitVec.reduceToNat]
  omega

/-- Settles O26: the bits are there, so MAGIC ends OK or Invalid by the 32 bits at the cursor. -/
theorem magicIsFourBytes : Obligations.MagicIsFourBytes := by
  intro s hbit hlen
  have haddr : s.cur.addr = 8 * s.cur.byte := by rw [Cursor.addr, hbit]; rfl
  have hb : s.cur.addr + 32 ≤ 8 * s.bufLen := by omega
  have hadvance : s.cur.advance 32 = ⟨s.cur.byte + 4, 0⟩ :=
    Cursor.eq_of_addr (by rw [Cursor.addr_advance, haddr]; exact (Nat.mul_add 8 s.cur.byte 4).symm)
  have hbytes := field_eq_magicWord_iff s s.cur.byte
  rw [← haddr] at hbytes
  rw [← hbytes]
  by_cases hm : field s s.cur.addr 32 = magicWord
  case pos =>
    exact ⟨_, exec_of_accepted (i := .magic) rfl hb hm, .inl rfl, iff_of_true rfl hm, fun _ => hadvance,
      nofun⟩
  case neg =>
    exact ⟨_, exec_of_rejects (i := .magic) ⟨hb, hm⟩, .inr rfl, iff_of_false (raise_kind_ne_ok _ _ _) hm,
      nofun, fun _ => rfl⟩

/-! ### STREAM -/

theorem streamPieces_sum (t : PieceTable) : (streamPieces t).sum = 336 := by
  simp [streamPieces, headerPieces_sum, infoPieces_sum]

theorem streamPieces_bounds (t : PieceTable) : ∀ w ∈ streamPieces t, 1 ≤ w ∧ w ≤ 64 := by
  simp only [streamPieces, List.forall_mem_append]
  exact ⟨⟨by decide, headerPieces_bounds t⟩, infoPieces_bounds t⟩

/-- The part of the stream in which the bits end decides the count (44_stream_decoder.md R150). -/
theorem shortfall_streamPieces (t : PieceTable) (R : Nat) :
    shortfall (streamPieces t) R =
      if R < 32 then shortfall [8, 8, 8, 8] R else if R < 64 then shortfall (headerPieces t) (R - 32)
      else shortfall (infoPieces t) (R - 64) := by
  have hmagic : ([8, 8, 8, 8] : List Nat).sum = 32 := rfl
  rw [streamPieces, List.append_assoc, shortfall_append, shortfall_append, hmagic, headerPieces_sum, Nat.sub_sub]
  by_cases h : R < 32
  · rw [if_pos h, if_pos h]
  · have h64 : R - 32 < 32 ↔ R < 64 := by omega
    simp only [if_neg h, h64]

/-- STREAM rejects its input at the magic or at the header, once it has the bits of the part it checks
(44_stream_decoder.md R148, R149). -/
theorem rejects_stream_iff {s : State} {R : Nat} (hs : Avail s R) :
    Rejects s .stream ↔ (32 ≤ R ∧ field s s.cur.addr 32 ≠ magicWord) ∨ (64 ≤ R ∧ ¬ HeaderAccepted s) := by
  rw [Rejects, addr_add_le_iff hs, addr_add_le_iff hs]

/-- STREAM rejects nothing where each part it has the bits of is right. -/
theorem not_rejects_stream_iff {s : State} {R : Nat} (hs : Avail s R) :
    ¬ Rejects s .stream ↔ (32 ≤ R → field s s.cur.addr 32 = magicWord) ∧ (64 ≤ R → HeaderAccepted s) := by
  rw [rejects_stream_iff hs, not_or, not_and_not_right, not_and_not_right]

/-- STREAM that rejects nothing and is short of bits raises Incomplete with the count of the first short piece
(44_stream_decoder.md R150). -/
theorem streamBody_of_short {s : State} {R : Nat} (hs : Avail s R) (hr : ¬ Rejects s .stream) (h : R < 336) :
    streamBody s s.cur = .error (.incomplete (neededBy (streamPieces s.params.pieces) R)) := by
  have hbits := addr_add_le_iff hs
  have hrest (n : Nat) : 8 * s.bufLen - (s.cur.addr + n) = R - n := by rw [← Nat.sub_sub, sub_addr_eq hs]
  obtain ⟨hmagic, hheader⟩ := (not_rejects_stream_iff hs).mp hr
  rw [neededBy_eq_shortfall _ R (by rwa [streamPieces_sum]), shortfall_streamPieces, streamBody_eq s s.cur hs.1]
  simp only [hbits, hrest, sub_addr_eq hs]
  by_cases h32 : R < 32
  · rw [if_pos h32, if_neg (by omega)]
  rw [if_neg h32, if_pos (by omega), if_pos (hmagic (by omega))]
  by_cases h64 : R < 64
  · rw [if_pos h64, if_neg (by omega)]
  rw [if_neg h64, if_pos (by omega), if_pos (hheader (by omega)), if_neg (by omega)]

/-- Such a STREAM clears its two groups and keeps the rest (44_stream_decoder.md R145). -/
theorem stream_failed_of_short {s : State} {R : Nat} (hs : Avail s R) (hr : ¬ Rejects s .stream) (h : R < 336) :
    ∃ t, exec .stream s = .next t ∧ Failed s t [.bh, .si] .incomplete (neededBy (streamPieces s.params.pieces) R) := by
  have hshort : R < (streamPieces s.params.pieces).sum := by rwa [streamPieces_sum]
  have hcount := (shortfall_bounds _ R (streamPieces_bounds _) hshort).2
  rw [← neededBy_eq_shortfall _ R hshort] at hcount
  exact ⟨_, runCommand_error hs.1 (streamBody_of_short hs hr h), failed_raise_incomplete s _ hcount⟩

theorem stream_failed_of_rejects {s : State} (hr : Rejects s .stream) :
    ∃ t, exec .stream s = .next t ∧ Failed s t [.bh, .si] .invalid 0 :=
  ⟨_, exec_of_rejects hr, failed_raise_invalid s _⟩

/-- Settles O23: each of the six cases rejects the input, is short without rejecting it, or has all bits with the content
accepted. -/
theorem streamMeaning : Obligations.StreamMeaning := by
  intro s R hs
  have hrejects := rejects_stream_iff hs
  have haccepts := not_rejects_stream_iff hs
  refine ⟨rfl, ?noMagic, ?wrongMagic, ?noHeader, ?wrongHeader, ?noInfo, ?complete⟩
  case noMagic =>
    intro h
    exact stream_failed_of_short hs (haccepts.mpr ⟨by omega, by omega⟩) (by omega)
  case wrongMagic =>
    intro h hm
    exact stream_failed_of_rejects (hrejects.mpr (.inl ⟨h, hm⟩))
  case noHeader =>
    intro _ h hm
    exact stream_failed_of_short hs (haccepts.mpr ⟨fun _ => hm, by omega⟩) (by omega)
  case wrongHeader =>
    intro h _ ha
    exact stream_failed_of_rejects (hrejects.mpr (.inr ⟨h, ha⟩))
  case noInfo =>
    intro _ h hm ha
    exact stream_failed_of_short hs (haccepts.mpr ⟨fun _ => hm, fun _ => ha⟩) h
  case complete =>
    intro h hm ha
    exact exec_of_accepted (i := .stream) rfl ((addr_add_le_iff hs 336).mpr h) ⟨hm, ha⟩

/-- Settles O44: the targets of STREAM are the BH and the SI group. -/
theorem frameOfStream : Obligations.FrameOfStream := by
  intro s t h
  obtain ⟨-, -, he⟩ := exec_next h
  obtain ⟨hvValue, hvalue⟩ := he.keepsGroup .value (by decide)
  exact ⟨he.keepsInput, hvalue, hvValue⟩

/-! ### The count of a short STREAM -/

theorem prefixSums_streamPieces_tabulated : prefixSums (streamPieces .tabulated) = streamPrefixes := rfl

/-- From a whole byte the next prefix sum is 8 bits on, but 1 bit from 32, where the last-block flag follows, and 4 bits
from 160 and from 168: the sample rate ends at 164 and the depth at 172 (44_stream_decoder.md R150). -/
theorem neededFrom_streamPrefixes_bytes :
    ∀ m < 42, neededFrom streamPrefixes (8 * m) = if m = 4 then 1 else if m = 20 ∨ m = 21 then 4 else 8 := by decide

/-- An Incomplete STREAM is short of bits and rejects nothing, so its count is that of the first short piece. -/
theorem stream_short_of_incomplete {s t : State} {R : Nat} (hs : Avail s R) (h : exec .stream s = .next t)
    (hk : t.kind = .incomplete) : R < 336 ∧ t.needed.toNat = neededBy (streamPieces s.params.pieces) R := by
  have hr : ¬ Rejects s .stream := by rw [← exec_invalid_iff h, hk]; decide
  have hR : R < 336 := by
    obtain ⟨-, -, he⟩ := exec_next h
    exact not_le.mp fun hle => (he.short_of_incomplete hk).not_ge ((addr_add_le_iff hs 336).mpr hle)
  obtain ⟨t', ht', hfailed⟩ := stream_failed_of_short hs hr hR
  cases h.symm.trans ht'
  exact ⟨hR, hfailed.needed⟩

/-- Settles O25: an Incomplete STREAM is short of bits and carries the count of O23. -/
theorem streamNeededCounts : Obligations.StreamNeededCounts := by
  intro s t R hs h hk
  obtain ⟨hR, hneeded⟩ := stream_short_of_incomplete hs h hk
  rw [hneeded]
  refine ⟨exists_least_prefixSum (by rwa [streamPieces_sum]), fun htable => ?_⟩
  rw [neededBy, htable, prefixSums_streamPieces_tabulated]
  refine ⟨rfl, fun m hm => ?_⟩
  rw [hm]
  exact neededFrom_streamPrefixes_bytes m (by omega)

/-! ### STREAM as three commands in sequence -/

@[simp] theorem headerAt_commit (s : State) (c : Cursor) (r : Results) (a : Nat) :
    headerAt (s.commit c r) a = headerAt s a := rfl

@[simp] theorem infoAt_commit (s : State) (c : Cursor) (r : Results) (a : Nat) :
    infoAt (s.commit c r) a = infoAt s a := rfl

/-- What MAGIC, BLKHDR and STRINFO leave in sequence is what STREAM leaves: the fields are read from the same bytes,
at the same bit addresses (44_stream_decoder.md R151). -/
theorem succeeded_in_sequence (s : State) :
    succeeded (succeeded (succeeded s .magic) .blkhdr) .strinfo = succeeded s .stream := by
  simp only [succeeded, delivered, bitsConsumed, commit_cur, headerAt_commit, infoAt_commit, Cursor.advance_advance,
    Cursor.addr_advance, Nat.reduceAdd]
  rfl

theorem succeeded_bufLen (s : State) (i : Instr) : (succeeded s i).bufLen = s.bufLen := rfl

theorem succeeded_addr (s : State) (i : Instr) : (succeeded s i).cur.addr = s.cur.addr + bitsConsumed i :=
  Cursor.addr_advance ..

/-- Settles O38: both sides end OK on the same bits and the same magic, and the header check, where there is one, is
STREAM's alone. -/
theorem streamIsThreeCommands : Obligations.StreamIsThreeCommands := by
  constructor
  case left =>
    intro s t h hk
    obtain ⟨hb, ⟨hm, -⟩, rfl⟩ := accepted_of_exec_ok h hk
    rw [bitsConsumed] at hb
    have hmagic : exec .magic s = .next (succeeded s .magic) :=
      exec_of_accepted rfl (by rw [bitsConsumed]; omega) hm
    have hblkhdr : exec .blkhdr (succeeded s .magic) = .next (succeeded (succeeded s .magic) .blkhdr) :=
      exec_of_accepted rfl (by simp only [succeeded_addr, succeeded_bufLen, bitsConsumed]; omega) trivial
    have hstrinfo : exec .strinfo (succeeded (succeeded s .magic) .blkhdr) = .next (succeeded s .stream) := by
      rw [← succeeded_in_sequence]
      exact exec_of_accepted rfl (by simp only [succeeded_addr, succeeded_bufLen, bitsConsumed]; omega) trivial
    exact ⟨_, _, hmagic, rfl, hblkhdr, rfl, hstrinfo⟩
  case right =>
    intro s t1 t2 t hstrict h1 hk1 h2 hk2 h hk
    obtain ⟨-, hm, rfl⟩ := accepted_of_exec_ok h1 hk1
    obtain ⟨-, -, rfl⟩ := accepted_of_exec_ok h2 hk2
    obtain ⟨hb, -, rfl⟩ := accepted_of_exec_ok h hk
    simp only [succeeded_addr, succeeded_bufLen, bitsConsumed] at hb
    have ha : HeaderAccepted s := by simp [HeaderAccepted, hstrict]
    rw [succeeded_in_sequence]
    exact exec_of_accepted rfl (by rw [bitsConsumed]; omega) ⟨hm, ha⟩

end Sys2Proof
end

section
/-! PROOFS. The statements of 45_host_access.md: what each of the host's transactions does, and the step that performs
it. -/

namespace Sys2Proof

open Machine

/-! ### HostBufWrite -/

theorem hostBufWrite_of_lt {i : Nat} {s : State} (v : Byte) (h : i < s.params.bufCap) :
    hostBufWrite i v s = .next { s with buf := Memory.write s.buf i v } := if_pos h

theorem hostBufWrite_of_le {i : Nat} {s : State} (v : Byte) (h : s.params.bufCap ≤ i) :
    hostBufWrite i v s = .refused .bufIndexOutsideBuffer := if_neg h.not_gt

/-- Settles O47: a byte read after the write is the one written at its index, the old one at any other. -/
theorem hostBufWriteStoresOneByte : Obligations.HostBufWriteStoresOneByte := by
  intro s i v hi
  refine ⟨Memory.write s.buf i v, hostBufWrite_of_lt v hi, ?_, fun j hj => ?_⟩
  · rw [memByte_write, if_pos rfl]
  · rw [memByte_write, if_neg hj]

/-! ### HostWrite, by the register number -/

theorem hostWrite_cmd (v : Nat) (s : State) :
    hostWrite 0x00 v s = if v < 256 then hostCmd (BitVec.ofNat 8 v) s else .refused .hostValueOutOfRange := rfl

theorem hostWrite_curByte (v : Nat) (s : State) :
    hostWrite 0x03 v s =
      if v ≤ s.params.bufCap then .next { s with cur := ⟨v, s.cur.bit⟩ } else .refused .hostValueOutOfRange := rfl

theorem hostWrite_curBit (v : Nat) (s : State) :
    hostWrite 0x04 v s =
      if v ≤ 7 then .next { s with cur := ⟨s.cur.byte, BitVec.ofNat 3 v⟩ } else .refused .hostValueOutOfRange := rfl

theorem hostWrite_bufLen (v : Nat) (s : State) :
    hostWrite 0x05 v s =
      if v ≤ s.params.bufCap then .next { s with bufLen := v } else .refused .hostValueOutOfRange := rfl

/-- Settles O48: a value in the register's range passes the check; three bits hold every value up to 7. -/
theorem hostWriteOfWritableRegisters : Obligations.HostWriteOfWritableRegisters := by
  intro s v
  refine ⟨fun hv => ?curByte, fun hv => ?curBit, fun hv => ?bufLen⟩
  case curByte => rw [hostWrite_curByte, if_pos hv]
  case curBit =>
    have hbit : (BitVec.ofNat 3 v).toNat = v := (BitVec.toNat_ofNat v 3).trans (Nat.mod_eq_of_lt (by omega))
    exact ⟨_, (hostWrite_curBit v s).trans (if_pos hv), hbit, rfl⟩
  case bufLen => rw [hostWrite_bufLen, if_pos hv]

/-- Settles O49: each transaction checks its index or its value before it writes. -/
theorem hostAccessOutOfRangeStops : Obligations.HostAccessOutOfRangeStops := by
  intro s v
  refine ⟨fun b hv => hostBufWrite_of_le b hv, fun hv => ⟨?curByte, ?bufLen⟩, fun hv => ?curBit, fun hv => ?cmd⟩
  case curByte => rw [hostWrite_curByte, if_neg hv.not_ge]
  case bufLen => rw [hostWrite_bufLen, if_neg hv.not_ge]
  case curBit => rw [hostWrite_curBit, if_neg hv.not_ge]
  case cmd => rw [hostWrite_cmd, if_neg (by omega)]

/-- The numbers from 0x12 on are not assigned (45_host_access.md R166). -/
theorem register_of_unassigned {num : RegNum} (s : State) (h : 0x12 ≤ num.toNat) : s.register num = none := by
  obtain ⟨k, hk⟩ := Nat.exists_eq_add_of_le' h
  rw [State.register, hk]
  rfl

/-- A write to a read-only number (45_host_access.md R165) or to an unassigned one (R166) is ignored. -/
theorem hostWrite_of_not_writable {num : RegNum} (v : Nat) (s : State)
    (h : num.toNat = 0x01 ∨ num.toNat = 0x02 ∨ 0x06 ≤ num.toNat) : hostWrite num v s = .next s := by
  obtain h | h | h := h
  case inl => rw [hostWrite, h]; rfl
  case inr.inl => rw [hostWrite, h]; rfl
  case inr.inr =>
    obtain ⟨k, hk⟩ := Nat.exists_eq_add_of_le' h
    rw [hostWrite, hk]
    rfl

/-- Settles O50: no read-only or unassigned number is one of the four that a write acts on. -/
theorem otherRegisterWritesIgnored : Obligations.OtherRegisterWritesIgnored :=
  ⟨fun _ v s h => hostWrite_of_not_writable v s h, fun _ s h => register_of_unassigned s h⟩

/-! ### HostRead -/

theorem hostRead_of_register_eq_some {num : RegNum} {s : State} {x : Nat} (h : s.register num = some x) :
    hostRead num s = .next { s with hostData := some x } := by
  rw [hostRead, h]

/-- Settles O51: the host gets the register's value, or a drawn one where the register has none; the table of values is
that of `State.register`, number by number. -/
theorem hostReadReturnsRegister : Obligations.HostReadReturnsRegister := by
  intro s num
  refine ⟨?_, rfl, rfl, rfl, rfl, rfl, rfl, rfl, rfl, rfl, rfl, rfl, rfl, rfl, rfl, rfl, rfl, rfl, rfl⟩
  cases hreg : s.register num with
  | none =>
    obtain ⟨d, v, h⟩ := hostRead_next num s
    exact ⟨d, v, h, nofun⟩
  | some x => exact ⟨s.draws, x, hostRead_of_register_eq_some hreg, fun _ hx => Option.some.inj hx⟩

/-! ### HostCmd and the step -/

theorem hostCmd_of_ok {w : CommandWord} {i : Instr} (h : decode w = .ok i) (s : State) : hostCmd w s = exec i s := by
  rw [hostCmd, h]

/-- Settles O52: every command word is in the range that a write to CMD accepts. -/
theorem hostCmdExecutesWord : Obligations.HostCmdExecutesWord := by
  intro s w
  refine ⟨?_, fun i hi => hostCmd_of_ok hi s⟩
  rw [hostWrite_cmd, if_pos w.isLt, BitVec.ofNat_toNat, BitVec.setWidth_eq]

theorem step_of_pending {s : State} {x : Transaction} {rest : List Transaction} (h : s.pending = x :: rest) :
    step s = perform x { s with pending := rest } := by
  rw [step, h]

theorem decodeTableWord_eq_some_iff {nbits w : Nat} {i : Instr} :
    decodeTableWord nbits w = some i ↔ decode (BitVec.ofNat 8 (w % 2 ^ nbits)) = .ok i := by
  rw [decodeTableWord]
  cases decode (BitVec.ofNat 8 (w % 2 ^ nbits)) <;> simp [Except.toOption]

/-- A step whose transaction is a command word runs the command. -/
theorem step_of_pending_cmd {s : State} {w : CommandWord} {rest : List Transaction} {i : Instr}
    (hp : s.pending = .cmd w :: rest) (hi : decode w = .ok i) : step s = exec i { s with pending := rest } :=
  (step_of_pending hp).trans (hostCmd_of_ok hi _)

/-- Settles O60: `withFetchWord` puts the word at the head of `pending`, and the step takes it away again. -/
theorem stepRunsDecodedCommand : Obligations.StepRunsDecodedCommand := by
  refine ⟨fun s w rest i hp hi => step_of_pending_cmd hp hi, fun s nbits w i hi => ?_⟩
  exact step_of_pending_cmd (s := s.withFetchWord nbits w) rfl (decodeTableWord_eq_some_iff.mp hi)

end Sys2Proof
end

section
/-! PROOFS. The statements of 60_exceptions.md: what a failed command leaves, what a command that ends OK has found,
which commands can reject content, the retry, and the step as one transaction of the host. -/

namespace Sys2Proof

open Machine

/-! ### Failure -/

/-- A failed command failed with the outcome and the count it reports. -/
theorem Failed.with_reported {s t : State} {gs : List Group} {k : Kind} {n : Nat} (h : Failed s t gs k n) :
    Failed s t gs t.kind t.needed.toNat := { h with kind := rfl, needed := rfl }

/-- Settles O33: a command that does not commit enters failure, short of bits or with its content rejected. -/
theorem failureIsPrecise : Obligations.FailureIsPrecise := by
  intro i s t h hk
  obtain ⟨-, -, he⟩ := exec_next h
  cases he with
  | ok => exact absurd rfl hk
  | short _ _ h64 => exact ⟨(failed_raise_incomplete s _ h64).with_reported, .inl rfl⟩
  | invalid => exact ⟨(failed_raise_invalid s _).with_reported, .inr rfl⟩

/-- Settles O35: the outcome is INVALID only where a content check fails, and no other command has one. -/
theorem invalidOnlyFromMagicAndStream : Obligations.InvalidOnlyFromMagicAndStream := by
  intro i s t h hk
  have hr : Rejects s i := (exec_invalid_iff h).mp hk
  exact hr.magic_or_stream

/-! ### Success -/

/-- MAGIC and STREAM both accept only the magic at the cursor (30_encoding.md R70). -/
theorem Machine.ContentAccepted.field_eq_magicWord {s : State} {i : Instr} (h : ContentAccepted s i)
    (hi : i = .magic ∨ i = .stream) : field s s.cur.addr 32 = magicWord := by
  obtain rfl | rfl := hi
  · exact h
  · exact h.1

theorem Machine.ContentAccepted.headerAccepted {s : State} (h : ContentAccepted s .stream) : HeaderAccepted s := h.2

/-- Settles O34: a command commits only with its bits there and its content accepted. -/
theorem noFalseSuccess : Obligations.NoFalseSuccess := by
  intro i s t h hk
  obtain ⟨hb, hc, -⟩ := accepted_of_exec_ok h hk
  refine ⟨hb, hc.field_eq_magicWord, ?header⟩
  case header =>
    rintro rfl
    exact hc.headerAccepted

/-! ### The retry -/

/-- A well-formed command whose bits all remain completes, and not for want of bits. -/
theorem exec_ne_incomplete_of_enough {i : Instr} {s : State} (hi : i.wellFormed = true)
    (hb : s.cur.addr + bitsConsumed i ≤ 8 * s.bufLen) : ∃ t, exec i s = .next t ∧ t.kind ≠ .incomplete := by
  obtain ⟨t, ht⟩ := exec_total hi ((cursorWf_iff s s.cur).mpr (by omega))
  obtain ⟨-, -, he⟩ := exec_next ht
  exact ⟨t, ht, fun hk => (he.short_of_incomplete hk).not_ge hb⟩

/-- Settles O40: the command that ran once is well formed, and on the retry its bits all remain, which leaves no way to
end INCOMPLETE. That the cursor is the old one and the stream has not shrunk is not needed. -/
theorem retryWithEnoughBytes : Obligations.RetryWithEnoughBytes := by
  intro i s t u h _ _ _ hbits
  obtain ⟨hi, -, -⟩ := exec_next h
  rw [remaining_eq] at hbits
  exact exec_ne_incomplete_of_enough hi (by omega)

/-! ### The step -/

theorem step_of_idle {s : State} (h : s.pending = []) : step s = .next s := by
  rw [step, h]

/-- Settles O59: a step takes the head of `pending`, and there is none when the host is idle. -/
theorem stepPerformsNextTransaction : Obligations.StepPerformsNextTransaction :=
  ⟨fun _ _ _ h => step_of_pending h, fun _ h => step_of_idle h⟩

end Sys2Proof
end

section
/-! PROOFS. The statements of 70_reset_and_hazards.md: the reset event. -/

namespace Sys2Proof

open Machine

/-- With KIND = OK and every valid flag 0, STATUS is 0 (10_state.md R16). -/
theorem status_eq_zero {s : State} (hkind : s.kind = .ok) (hvalue : s.vValue = false) (hbh : s.vBh = false)
    (hsi : s.vSi = false) : s.status = 0 := by
  rw [State.status, hkind, hvalue, hbh, hsi]
  rfl

/-- The start of the buffer is a well-formed cursor at every BUF_LEN (10_state.md R13). -/
theorem cursorWf_start (s : State) : s.cursorWf ⟨0, 0⟩ := ⟨Nat.zero_le _, fun _ => rfl⟩

/-- Settles O55: STATUS follows from KIND and the flags, and the cursor is the start of the buffer. -/
theorem resetEventRestoresResetValues : Obligations.ResetEventRestoresResetValues := by
  intro s
  have hstatus : s.resetEvent.status = 0 :=
    status_eq_zero (resetEvent_kind s) (resetEvent_vValue s) (resetEvent_vBh s) (resetEvent_vSi s)
  have hwf : s.resetEvent.cursorWf s.resetEvent.cur := resetEvent_cur s ▸ cursorWf_start s.resetEvent
  exact ⟨s.resetEvent, rfl, resetEvent_cur s, resetEvent_bufLen s, resetEvent_kind s, resetEvent_needed s,
    resetEvent_vValue s, resetEvent_vBh s, resetEvent_vSi s, hstatus, resetEvent_buf s, resetEvent_params s,
    resetEvent_pending s, hwf⟩

end Sys2Proof
end
